-- ==== Sys2Proof/Word.lean ====
section
/-! DEFINITION. The word types of the machine (10_state.md R10, 30_encoding.md R50). Every value is an
unsigned quantity of a fixed width (00_scope.md R6), so a bit vector says what it is. -/

namespace Sys2Proof

/-- An 8-bit quantity: a general register, a memory cell, the immediate NN (R11, R20, R52). -/
abbrev Byte := BitVec 8

/-- A 16-bit quantity: PC, I, an instruction word (R14, R15, R50). -/
abbrev Word := BitVec 16

/-- A 12-bit quantity: a memory address, the immediate NNN (R5, R30, R52). -/
abbrev Addr := BitVec 12

/-- A 4-bit field of an instruction word: class, X, Y, N (R50). -/
abbrev Nibble := BitVec 4

/-- The number of a general register. An index outside 0 to 15 cannot be formed (R11). -/
abbrev RegIndex := Fin 16

end Sys2Proof
end

