-- ==== Sys2Proof/Config.lean ====
section
/-! DEFINITION. The implementation parameters of 00_scope.md R5, each with the one value the spec
gives it. Nothing here is left to the implementation, and this hardware has no undefined value, so
there is no free value in this file. -/

namespace Sys2Proof.Config

/-- `MEM_SIZE`: bytes of memory, addresses 0x000 to 0xFFF. -/
def memSize : Nat := 4096

/-- `ORIGIN`: the reset value of PC and the first address of a loaded program. -/
def origin : Nat := 0x200

/-- `LOAD_CAPACITY`: the longest payload the load interface accepts, `MEM_SIZE - ORIGIN`. -/
def loadCapacity : Nat := memSize - origin

/-- `INSN_BYTES`: the bytes of an instruction, which is what a cycle adds to PC. -/
def insnBytes : Word := 2

/-- `FLAG_REG`: the number of the flag register VF. -/
def flagReg : RegIndex := 15

end Sys2Proof.Config
end

