-- ==== Sys2Proof/Syntax.lean ====
section
/-! DEFINITION. The instructions, the operand sub-fields of a word, and the reasons the decoder has for
refusing a word (30_encoding.md). -/

namespace Sys2Proof

/-- The fifteen instructions of 30_encoding.md R55, one constructor per row, in the table's order. The
operands are those of the row's fields: `x`, `y` register numbers, `nn` the 8-bit immediate, `nnn` the
12-bit address. SHR and SHL keep the Y field of their word, which they ignore (R57), so that no bit of an
encoding is lost (log 16). -/
inductive Instr where
  /-- `1NNN` JP (R90). -/
  | jp (nnn : Addr)
  /-- `3XNN` SE_IMM (R91). -/
  | seImm (x : RegIndex) (nn : Byte)
  /-- `4XNN` SNE_IMM (R92). -/
  | sneImm (x : RegIndex) (nn : Byte)
  /-- `5XY0` SE_REG (R93). -/
  | seReg (x y : RegIndex)
  /-- `6XNN` LD_IMM (R100). -/
  | ldImm (x : RegIndex) (nn : Byte)
  /-- `7XNN` ADD_IMM (R101). -/
  | addImm (x : RegIndex) (nn : Byte)
  /-- `8XY0` LD_REG (R111). -/
  | ldReg (x y : RegIndex)
  /-- `8XY1` OR (R112). -/
  | or (x y : RegIndex)
  /-- `8XY2` AND (R113). -/
  | and (x y : RegIndex)
  /-- `8XY3` XOR (R114). -/
  | xor (x y : RegIndex)
  /-- `8XY4` ADD_REG (R115). -/
  | addReg (x y : RegIndex)
  /-- `8XY5` SUB (R116). -/
  | sub (x y : RegIndex)
  /-- `8XY6` SHR (R117); `y` is ignored. -/
  | shr (x y : RegIndex)
  /-- `8XY7` SUBN (R118). -/
  | subn (x y : RegIndex)
  /-- `8XYE` SHL (R119); `y` is ignored. -/
  | shl (x y : RegIndex)
  deriving DecidableEq, Repr

/-- The opcode class and the operand sub-fields the decoder of 30_encoding.md R51 produces from a word.
They overlap: NN is Y and N side by side, NNN is X, Y and N side by side (R50). -/
structure Fields where
  cls : Nibble
  x   : Nibble
  y   : Nibble
  n   : Nibble
  nn  : Byte
  nnn : Addr
  deriving DecidableEq, Repr

/-- Why a word is no instruction: the three groups of 30_encoding.md R58, and for a byte list, that it ends
inside a word. The hardware tells none of the three groups from another, all raise `UnimplementedOpcode`;
the names are the model's (log 18). -/
inductive Reject where
  /-- Class 0x0, 0x2, 0x9 to 0xF. -/
  | unmappedClass (cls : Nibble)
  /-- Class 0x8 with N in 0x8 to 0xD or 0xF. -/
  | unmappedAluOp (n : Nibble)
  /-- Class 0x5 with N not 0 (R59). -/
  | nonzeroSkipField (n : Nibble)
  /-- Fewer than two bytes: no word at all. -/
  | truncated
  deriving DecidableEq, Repr

end Sys2Proof
end

