-- ==== Sys2Proof/WellFormed.lean ====
section
/-! DEFINITION. Well-formedness. The operand types of `Instr` hold exactly the values its encoding admits
(a register number 0 to 15, an 8-bit NN, a 12-bit NNN: 10_state.md R11, 30_encoding.md R52), so every term
of `Instr` is well-formed and no check is left for it. What can be ill-formed is a `Fields` record: it
may not be the fields of one word, or its class and N may select no instruction. -/

namespace Sys2Proof

/-- NN is Y and N side by side (30_encoding.md R50). -/
def Fields.nnAgrees (f : Fields) : Bool :=
  f.nn.toNat == f.y.toNat * 16 + f.n.toNat

/-- NNN is X, Y and N side by side (30_encoding.md R50). -/
def Fields.nnnAgrees (f : Fields) : Bool :=
  f.nnn.toNat == f.x.toNat * 256 + f.y.toNat * 16 + f.n.toNat

/-- The class selects an instruction, alone or with N (30_encoding.md R54, R56): one of the classes 1, 3, 4,
6, 7, or class 5 with N zero, or class 8 with N from 0 to 7 or 0xE. -/
def Fields.mapped (f : Fields) : Bool :=
  [1, 3, 4, 6, 7].contains f.cls.toNat
    || (f.cls.toNat == 5 && f.n.toNat == 0)
    || (f.cls.toNat == 8 && (f.n.toNat < 8 || f.n.toNat == 0xE))

/-- The fields are those of one word, and the word is one of the 23040 legal ones (R60). -/
def Fields.wellFormed (f : Fields) : Bool :=
  f.nnAgrees && f.nnnAgrees && f.mapped

end Sys2Proof
end

