-- ==== Sys2Proof/Decode.lean ====
section
/-! DEFINITION. The decoder and dispatcher of 30_encoding.md R50 to R59, total on every word and every
byte list and rejecting by name, and after it the encoder, written from the table of R55. -/

namespace Sys2Proof

/-- A register number from the 4-bit field X or Y (10_state.md R11). -/
def regOfField (f : Nibble) : RegIndex := ⟨f.toNat, f.isLt⟩

/-- The decoder of 30_encoding.md R51: the six sub-fields of R50, for every word. -/
def fieldsOf (w : Word) : Fields where
  cls := w.extractLsb' 12 4
  x := w.extractLsb' 8 4
  y := w.extractLsb' 4 4
  n := w.extractLsb' 0 4
  nn := w.extractLsb' 0 8
  nnn := w.extractLsb' 0 12

/-- The second level of dispatch, class 0x8 by N (30_encoding.md R56). -/
def dispatchAlu (f : Fields) : Except Reject Instr :=
  let x := regOfField f.x
  let y := regOfField f.y
  match f.n.toNat with
  | 0x0 => .ok (.ldReg x y)
  | 0x1 => .ok (.or x y)
  | 0x2 => .ok (.and x y)
  | 0x3 => .ok (.xor x y)
  | 0x4 => .ok (.addReg x y)
  | 0x5 => .ok (.sub x y)
  | 0x6 => .ok (.shr x y)
  | 0x7 => .ok (.subn x y)
  | 0xE => .ok (.shl x y)
  | _ => .error (.unmappedAluOp f.n)

/-- The first level of dispatch, by class (30_encoding.md R53, R54); class 0x5 demands N = 0 (R59). -/
def dispatch (f : Fields) : Except Reject Instr :=
  match f.cls.toNat with
  | 0x1 => .ok (.jp f.nnn)
  | 0x3 => .ok (.seImm (regOfField f.x) f.nn)
  | 0x4 => .ok (.sneImm (regOfField f.x) f.nn)
  | 0x5 =>
    if f.n = 0 then .ok (.seReg (regOfField f.x) (regOfField f.y)) else .error (.nonzeroSkipField f.n)
  | 0x6 => .ok (.ldImm (regOfField f.x) f.nn)
  | 0x7 => .ok (.addImm (regOfField f.x) f.nn)
  | 0x8 => dispatchAlu f
  | _ => .error (.unmappedClass f.cls)

/-- The instruction a word is, or the reason it is none (30_encoding.md R55, R58). -/
def decode (w : Word) : Except Reject Instr := dispatch (fieldsOf w)

/-- The word of two consecutive bytes, the first one bits 15 to 8 (20_memory.md R32). -/
def wordOfBytes (hi lo : Byte) : Word := hi ++ lo

/-- The byte of a word that lies at the lower address (20_memory.md R32). -/
def highByte (w : Word) : Byte := w.extractLsb' 8 8

/-- The byte of a word that lies at the higher address (20_memory.md R32). -/
def lowByte (w : Word) : Byte := w.extractLsb' 0 8

/-- The decoder on bytes in address order: the first instruction and the bytes after it. Every
instruction is two bytes long (30_encoding.md R61). -/
def decodeBytes : List Byte → Except Reject (Instr × List Byte)
  | hi :: lo :: rest =>
    match decode (wordOfBytes hi lo) with
    | .ok i => .ok (i, rest)
    | .error r => .error r
  | _ => .error .truncated

/-- The bytes of a word as memory holds them, high byte first (20_memory.md R32). -/
def bytesOfWord (w : Word) : List Byte := [highByte w, lowByte w]

/-- The word an opcode-table row's bits stand for: bit 0 is the least significant bit of the one
16-bit word, bits above `nbits` are zero. -/
def tableWord (nbits w : Nat) : Word := BitVec.ofNat 16 (w % 2 ^ nbits)

/-- What the decoder reads from the bytes of an instruction whose bits the opcode table numbers. -/
def decodeTableWord (nbits w : Nat) : Option Instr :=
  match decodeBytes (bytesOfWord (tableWord nbits w)) with
  | .ok (i, _) => some i
  | .error _ => none

/-- The 4-bit field that names a register (30_encoding.md R50). -/
def fieldOfReg (r : RegIndex) : Nibble := BitVec.ofNat 4 r.val

/-- A word of the layout class, NNN. -/
def wordNNN (cls : Nibble) (nnn : Addr) : Word := cls ++ nnn

/-- A word of the layout class, X, NN. -/
def wordXNN (cls : Nibble) (x : RegIndex) (nn : Byte) : Word := cls ++ fieldOfReg x ++ nn

/-- A word of the layout class, X, Y, N. -/
def wordXYN (cls : Nibble) (x y : RegIndex) (n : Nibble) : Word := cls ++ fieldOfReg x ++ fieldOfReg y ++ n

/-- The word of an instruction, by the patterns of 30_encoding.md R55. -/
def encode : Instr → Word
  | .jp nnn => wordNNN 0x1 nnn
  | .seImm x nn => wordXNN 0x3 x nn
  | .sneImm x nn => wordXNN 0x4 x nn
  | .seReg x y => wordXYN 0x5 x y 0x0
  | .ldImm x nn => wordXNN 0x6 x nn
  | .addImm x nn => wordXNN 0x7 x nn
  | .ldReg x y => wordXYN 0x8 x y 0x0
  | .or x y => wordXYN 0x8 x y 0x1
  | .and x y => wordXYN 0x8 x y 0x2
  | .xor x y => wordXYN 0x8 x y 0x3
  | .addReg x y => wordXYN 0x8 x y 0x4
  | .sub x y => wordXYN 0x8 x y 0x5
  | .shr x y => wordXYN 0x8 x y 0x6
  | .subn x y => wordXYN 0x8 x y 0x7
  | .shl x y => wordXYN 0x8 x y 0xE

/-- The mask column of 30_encoding.md R55: the bits of the word the row fixes. -/
def Instr.mask : Instr → Word
  | .jp _ | .seImm _ _ | .sneImm _ _ | .ldImm _ _ | .addImm _ _ => 0xF000
  | .seReg _ _ | .ldReg _ _ | .or _ _ | .and _ _ | .xor _ _ | .addReg _ _ | .sub _ _ | .shr _ _
  | .subn _ _ | .shl _ _ => 0xF00F

/-- The match column of 30_encoding.md R55: the values of the fixed bits. -/
def Instr.matchBits : Instr → Word
  | .jp _ => 0x1000
  | .seImm _ _ => 0x3000
  | .sneImm _ _ => 0x4000
  | .seReg _ _ => 0x5000
  | .ldImm _ _ => 0x6000
  | .addImm _ _ => 0x7000
  | .ldReg _ _ => 0x8000
  | .or _ _ => 0x8001
  | .and _ _ => 0x8002
  | .xor _ _ => 0x8003
  | .addReg _ _ => 0x8004
  | .sub _ _ => 0x8005
  | .shr _ _ => 0x8006
  | .subn _ _ => 0x8007
  | .shl _ _ => 0x800E

end Sys2Proof
end

