-- ==== Sys2Proof/Machine/State.lean ====
section
/-! DEFINITION. The state of the machine (10_state.md R10 to R24), the reasons a step could stop, and the
state after reset (R22). -/

namespace Sys2Proof.Machine

/-- The values of `fault_cause` (10_state.md R18, 60_exceptions.md R130). -/
inductive FaultCause where
  /-- 0: no error. -/
  | none
  /-- 1: the dispatched word matches no row of the opcode table (R131). -/
  | unimplementedOpcode
  /-- 2: a fetch with PC above 0x0FFE (R132). -/
  | outOfBoundsAddress
  /-- 3: a load of more bytes than fit (R133). -/
  | programTooLarge
  deriving DecidableEq, Repr

/-- Memory: the listed cells, addresses strictly rising, none equal to what an unlisted address reads as
(`Memory.wf` in Machine/Ops.lean; log 13). -/
abbrev Memory := List Host.Cell

/-- The complete state of the hardware (10_state.md R10): the machine state, and the four fields of the fault
latch (R18). No field holds a time, a cycle count or a rate: the hardware has none (70_reset_and_hazards.md
R173). -/
structure State where
  /-- V0 .. VF (R11); V[15] is the flag register (R13). -/
  v          : Vector Byte 16
  /-- The index register I (R14). -/
  i          : Word
  /-- The program counter (R15). -/
  pc         : Word
  /-- The 4096 cells of memory (R20). -/
  mem        : Memory
  /-- `halted`: an error is latched (R18). -/
  halted     : Bool
  /-- `fault_cause` (R18). -/
  faultCause : FaultCause
  /-- `fault_pc`: PC when the failing operation began (R18). -/
  faultPc    : Word
  /-- `fault_word`: the word, for cause 1, else 0 (R18). -/
  faultWord  : Word
  deriving DecidableEq, Repr

/-- Reasons a step stops with a fault of the model: there are none. The three errors of the hardware
(60_exceptions.md R130) are not faults of the model but next states: each is latched in the state as R134
describes, and the halted state goes on answering itself (R135; log 1, log 2, log 17). -/
inductive Fault where
  deriving DecidableEq, Repr

/-- Reasons an instruction has no meaning. -/
inductive Refusal where
  /-- The instruction of this mnemonic has no meaning yet. Raised by no arm of `exec`: all fifteen
  instructions are modelled. Safe: a refused step answers no state to prove anything about. -/
  | notModelled (mnemonic : String)
  deriving DecidableEq, Repr

/-- The state after reset (10_state.md R22, 70_reset_and_hazards.md R160): everything zero but PC. -/
def State.reset : State where
  v := Vector.replicate 16 0
  i := 0
  pc := BitVec.ofNat 16 Config.origin
  mem := []
  halted := false
  faultCause := .none
  faultPc := 0
  faultWord := 0

end Sys2Proof.Machine
end

