-- ==== Sys2Proof/Machine/Ops.lean ====
section
/-! DEFINITION. The operations over memory, registers and PC that the meanings and the host operations
share (the primitives of 00_scope.md R8), fetching a word (40_execute_cycle.md R72), and raising an error
(60_exceptions.md R134). -/

namespace Sys2Proof.Machine

/-- What a cell nobody has written since reset reads as (20_memory.md R43). -/
def Memory.unlisted : Byte := 0x00

/-- The byte a memory holds at an address. -/
def Memory.read : Memory → Nat → Byte
  | [], _ => Memory.unlisted
  | (k, b) :: m, a => if k = a then b else Memory.read m a

/-- The memory with the byte at one address replaced. It keeps the canonical form: the list stays sorted,
and a cell that gets the unlisted value leaves it. -/
def Memory.write : Memory → Nat → Byte → Memory
  | [], a, b => if b = Memory.unlisted then [] else [(a, b)]
  | (k, c) :: m, a, b =>
    if a < k then
      if b = Memory.unlisted then (k, c) :: m else (a, b) :: (k, c) :: m
    else if a = k then
      if b = Memory.unlisted then m else (a, b) :: m
    else (k, c) :: Memory.write m a b

/-- The canonical form from an address on: addresses strictly rising from `lo`, all of them addresses of
the machine (20_memory.md R30), no cell equal to the unlisted value. -/
def Memory.wfFrom : Nat → Memory → Bool
  | _, [] => true
  | lo, (a, b) :: m => lo ≤ a && a < Config.memSize && b != Memory.unlisted && Memory.wfFrom (a + 1) m

/-- The canonical form of a memory. Two memories in it that read alike are equal. -/
def Memory.wf (m : Memory) : Bool := Memory.wfFrom 0 m

/-- Consecutive byte writes from an address on (70_reset_and_hazards.md R162). -/
def Memory.writeBytes : Memory → Nat → List Byte → Memory
  | m, _, [] => m
  | m, a, b :: bs => Memory.writeBytes (Memory.write m a b) (a + 1) bs

/-- `MemRead(addr, 1)` (00_scope.md R8): the byte at an address, defined only for 0 to 4095. -/
def State.memRead (s : State) (a : Nat) : Option Byte :=
  if a < Config.memSize then some (s.mem.read a) else none

/-- `MemWrite(addr, 1, b)` (00_scope.md R8), at a 12-bit address; of the host only, no instruction stores
(20_memory.md R35). -/
def State.memWrite (a : Addr) (b : Byte) (s : State) : State :=
  { s with mem := s.mem.write a.toNat b }

/-- `V[r]` (00_scope.md R8). -/
def State.readV (s : State) (r : RegIndex) : Byte := s.v[r]

/-- `V[r] <- b` (00_scope.md R8). No register is hard-wired (10_state.md R11). -/
def State.writeV (r : RegIndex) (b : Byte) (s : State) : State :=
  { s with v := s.v.set r b }

/-- `I <- w` (00_scope.md R8). -/
def State.writeI (w : Word) (s : State) : State := { s with i := w }

/-- `pc <- w` (00_scope.md R8). The value is not checked (10_state.md R17). -/
def State.writePC (w : Word) (s : State) : State := { s with pc := w }

/-- `pc <- (pc + 2) mod 65536`: the advance of a cycle (40_execute_cycle.md R73). -/
def State.advance (s : State) : State := s.writePC (s.pc + Config.insnBytes)

/-- The further `pc <- (pc + 2) mod 65536` of a skip whose condition holds (41_control_transfer.md R91). -/
def State.skipIf (c : Bool) (s : State) : State := if c then s.advance else s

/-- `Fetch` (40_execute_cycle.md R72): the big-endian word at PC and PC + 1, or none when either address is
outside memory. PC + 1 is an integer sum, never reduced modulo 4096 or 65536 (20_memory.md R36). -/
def State.fetch (s : State) : Option Word :=
  match s.memRead s.pc.toNat, s.memRead (s.pc.toNat + 1) with
  | some hi, some lo => some (wordOfBytes hi lo)
  | _, _ => none

/-- `raise` (60_exceptions.md R134): latch the error and change nothing else. This is taking an exception
on this hardware; there is no handler and no return, only reset clears the latch (R135, R138). -/
def State.raise (c : FaultCause) (p w : Word) (s : State) : State :=
  { s with halted := true, faultCause := c, faultPc := p, faultWord := w }

/-- `raise UnimplementedOpcode(fault_pc = a, fault_word = w)` (60_exceptions.md R131). -/
def State.raiseUnimplementedOpcode (a w : Word) (s : State) : State :=
  s.raise .unimplementedOpcode a w

/-- `raise OutOfBoundsAddress(fault_pc = pc, fault_word = 0)` (60_exceptions.md R132). -/
def State.raiseOutOfBoundsAddress (s : State) : State :=
  s.raise .outOfBoundsAddress s.pc 0

/-- `raise ProgramTooLarge(fault_pc = pc, fault_word = 0)` (60_exceptions.md R133). -/
def State.raiseProgramTooLarge (s : State) : State :=
  s.raise .programTooLarge s.pc 0

/-- The code `fault_cause` holds for a cause (60_exceptions.md R130). -/
def FaultCause.code : FaultCause → BitVec 2
  | .none => 0
  | .unimplementedOpcode => 1
  | .outOfBoundsAddress => 2
  | .programTooLarge => 3

end Sys2Proof.Machine
end

