-- ==== Sys2Proof/Machine/Operands.lean ====
section
/-! DEFINITION. The operand forms (30_encoding.md R52). There are three: a register named by X or Y, the
8-bit immediate NN, the 12-bit immediate NNN. There is no memory operand. -/

namespace Sys2Proof.Machine

/-- A register operand, read before any write of the instruction (43_alu.md R110). -/
def State.regOperand (s : State) (r : RegIndex) : Byte := s.readV r

/-- The immediate NN, used as it stands: `zext_8(w[7:0])` (30_encoding.md R52). -/
def immNN (nn : Byte) : Byte := nn

/-- The immediate NNN as a value of PC: `zext_16(w[11:0])` (30_encoding.md R52). -/
def immNNN (nnn : Addr) : Word := nnn.setWidth 16

end Sys2Proof.Machine
end

