-- ==== Sys2Proof/Machine/Flags.lean ====
section
/-! DEFINITION. The arithmetic results and the flag values (43_alu.md R115 to R121). As the rules do, each
sum and difference is formed over the unbounded integers and narrowed by an exact `mod 256`. -/

namespace Sys2Proof.Machine

/-- `(vx + vy) mod 256` (42_immediate.md R101, 43_alu.md R115). -/
def sumMod256 (vx vy : Byte) : Byte := BitVec.ofNat 8 ((vx.toNat + vy.toNat) % 256)

/-- `(vx - vy) mod 256`, the residue in 0 .. 255 also of a negative difference (00_scope.md R7, 43_alu.md
R116, R118). -/
def diffMod256 (vx vy : Byte) : Byte := BitVec.ofNat 8 (((vx.toNat : Int) - vy.toNat) % 256).toNat

/-- A flag value: the whole byte 0x01 or 0x00, never a single bit (10_state.md R13). -/
def flagByte (c : Bool) : Byte := if c then 0x01 else 0x00

/-- The carry of `vx + vy`: 1 if the sum exceeds 255 (43_alu.md R115). -/
def carryFlag (vx vy : Byte) : Byte := flagByte (vx.toNat + vy.toNat > 255)

/-- The no-borrow flag of `vx - vy`: 1 if `vx >= vy` (43_alu.md R116, R118). -/
def noBorrowFlag (vx vy : Byte) : Byte := flagByte (vx.toNat ≥ vy.toNat)

/-- The bit a right shift pushes out, `vx & 1` (43_alu.md R117). -/
def shiftedOutLow (vx : Byte) : Byte := vx &&& 0x01

/-- The bit a left shift pushes out, `(vx & 0x80) >> 7` (43_alu.md R119). -/
def shiftedOutHigh (vx : Byte) : Byte := (vx &&& 0x80) >>> 7

/-- `vx >> 1`, a zero entering at the top (43_alu.md R117). -/
def shiftRight1 (vx : Byte) : Byte := vx >>> 1

/-- `(vx << 1) mod 256`, a zero entering at the bottom (43_alu.md R119). -/
def shiftLeft1 (vx : Byte) : Byte := BitVec.ofNat 8 ((vx.toNat <<< 1) % 256)

/-- The result into `V[X]`, then the flag into VF: the write order of ADD_REG, SUB and SUBN. With X = 0xF
the flag remains (43_alu.md R110, R123; log 5). -/
def State.writeResultThenFlag (x : RegIndex) (result flag : Byte) (s : State) : State :=
  (s.writeV x result).writeV Config.flagReg flag

/-- The flag into VF, then the result into `V[X]`: the write order of SHR and SHL. With X = 0xF the result
remains (43_alu.md R110, R124; log 4). -/
def State.writeFlagThenResult (x : RegIndex) (flag result : Byte) (s : State) : State :=
  (s.writeV Config.flagReg flag).writeV x result

end Sys2Proof.Machine
end

