-- ==== Sys2Proof/Machine/Alu.lean ====
section
/-! DEFINITION. The meanings of the nine instructions of class 0x8 (43_alu.md R111 to R119). Operands are
read before any write, the writes follow the order of the rule (R110). -/

namespace Sys2Proof.Machine

/-- LD_REG: `V[X] <- V[Y]` (43_alu.md R111). -/
def execLdReg (x y : RegIndex) (s : State) : Host.Outcome State Fault Refusal :=
  .next (s.writeV x (s.regOperand y))

/-- OR: `V[X] <- V[X] | V[Y]` (43_alu.md R112). -/
def execOr (x y : RegIndex) (s : State) : Host.Outcome State Fault Refusal :=
  .next (s.writeV x (s.regOperand x ||| s.regOperand y))

/-- AND: `V[X] <- V[X] & V[Y]` (43_alu.md R113). -/
def execAnd (x y : RegIndex) (s : State) : Host.Outcome State Fault Refusal :=
  .next (s.writeV x (s.regOperand x &&& s.regOperand y))

/-- XOR: `V[X] <- V[X] ^ V[Y]` (43_alu.md R114). -/
def execXor (x y : RegIndex) (s : State) : Host.Outcome State Fault Refusal :=
  .next (s.writeV x (s.regOperand x ^^^ s.regOperand y))

/-- ADD_REG: the sum, then VF the carry (43_alu.md R115). -/
def execAddReg (x y : RegIndex) (s : State) : Host.Outcome State Fault Refusal :=
  let vx := s.regOperand x
  let vy := s.regOperand y
  .next (s.writeResultThenFlag x (sumMod256 vx vy) (carryFlag vx vy))

/-- SUB: `V[X] - V[Y]`, then VF 1 for no borrow (43_alu.md R116). -/
def execSub (x y : RegIndex) (s : State) : Host.Outcome State Fault Refusal :=
  let vx := s.regOperand x
  let vy := s.regOperand y
  .next (s.writeResultThenFlag x (diffMod256 vx vy) (noBorrowFlag vx vy))

/-- SHR: VF the old bit 0, then `V[X] >> 1`; Y is ignored (43_alu.md R117, 30_encoding.md R57). -/
def execShr (x : RegIndex) (s : State) : Host.Outcome State Fault Refusal :=
  let vx := s.regOperand x
  .next (s.writeFlagThenResult x (shiftedOutLow vx) (shiftRight1 vx))

/-- SUBN: `V[Y] - V[X]` into `V[X]`, then VF 1 for no borrow (43_alu.md R118). -/
def execSubn (x y : RegIndex) (s : State) : Host.Outcome State Fault Refusal :=
  let vx := s.regOperand x
  let vy := s.regOperand y
  .next (s.writeResultThenFlag x (diffMod256 vy vx) (noBorrowFlag vy vx))

/-- SHL: VF the old bit 7, then `(V[X] << 1) mod 256`; Y is ignored (43_alu.md R119, 30_encoding.md R57). -/
def execShl (x : RegIndex) (s : State) : Host.Outcome State Fault Refusal :=
  let vx := s.regOperand x
  .next (s.writeFlagThenResult x (shiftedOutHigh vx) (shiftLeft1 vx))

end Sys2Proof.Machine
end

