-- ==== Sys2Proof/Machine/Control.lean ====
section
/-! DEFINITION. The meanings of the jump and the three skips (41_control_transfer.md R90 to R93). A meaning
is the handler of 40_execute_cycle.md R74: it starts where PC is already past its own word. -/

namespace Sys2Proof.Machine

/-- JP: `pc <- NNN` (41_control_transfer.md R90). -/
def execJp (nnn : Addr) (s : State) : Host.Outcome State Fault Refusal :=
  .next (s.writePC (immNNN nnn))

/-- SE_IMM: skip if `V[X] == NN` (41_control_transfer.md R91). -/
def execSeImm (x : RegIndex) (nn : Byte) (s : State) : Host.Outcome State Fault Refusal :=
  .next (s.skipIf (s.regOperand x == immNN nn))

/-- SNE_IMM: skip if `V[X] != NN` (41_control_transfer.md R92). -/
def execSneImm (x : RegIndex) (nn : Byte) (s : State) : Host.Outcome State Fault Refusal :=
  .next (s.skipIf (s.regOperand x != immNN nn))

/-- SE_REG: skip if `V[X] == V[Y]` (41_control_transfer.md R93). -/
def execSeReg (x y : RegIndex) (s : State) : Host.Outcome State Fault Refusal :=
  .next (s.skipIf (s.regOperand x == s.regOperand y))

end Sys2Proof.Machine
end

