-- ==== Sys2Proof/Machine/Immediate.lean ====
section
/-! DEFINITION. The meanings of load-immediate and add-immediate (42_immediate.md R100, R101). -/

namespace Sys2Proof.Machine

/-- LD_IMM: `V[X] <- NN` (42_immediate.md R100). -/
def execLdImm (x : RegIndex) (nn : Byte) (s : State) : Host.Outcome State Fault Refusal :=
  .next (s.writeV x (immNN nn))

/-- ADD_IMM: `V[X] <- (V[X] + NN) mod 256`; the carry is lost, VF is not written (42_immediate.md R101). -/
def execAddImm (x : RegIndex) (nn : Byte) (s : State) : Host.Outcome State Fault Refusal :=
  .next (s.writeV x (sumMod256 (s.regOperand x) (immNN nn)))

end Sys2Proof.Machine
end

