-- ==== Sys2Proof/Machine/Cycle.lean ====
section
/-! DEFINITION. The execute cycle (40_execute_cycle.md): steps (2) to (5), the injection `execute`, and the
fetch-driven cycle that `step` is. -/

namespace Sys2Proof.Machine

/-- `Cycle(a, w)` (40_execute_cycle.md R74): advance PC for every word, decode, dispatch, run the handler; a
word that no handler takes raises `UnimplementedOpcode` with PC already advanced (60_exceptions.md R131). One
cycle runs at most one handler; `execute` and `fetchCycle` each call it at most once, so every instruction is one
invocation of one of them (70_reset_and_hazards.md R173). -/
def cycle (w : Word) (s : State) : Host.Outcome State Fault Refusal :=
  match decode w with
  | .ok i => exec i s.advance
  | .error _ => .next (s.advance.raiseUnimplementedOpcode s.pc w)

/-- `execute(word)` (40_execute_cycle.md R71): a cycle on a word the host supplies. No memory is read and PC
is not range-checked; a halted engine ignores it (60_exceptions.md R135). -/
def execute (w : Word) (s : State) : Host.Outcome State Fault Refusal :=
  if s.halted then .next s else cycle w s

/-- `step()` (40_execute_cycle.md R70): a cycle on the word at PC, or `OutOfBoundsAddress` where there is none;
a halted engine ignores it (60_exceptions.md R135). -/
def fetchCycle (s : State) : Host.Outcome State Fault Refusal :=
  if s.halted then .next s
  else
    match s.fetch with
    | some w => cycle w s
    | none => .next s.raiseOutOfBoundsAddress

/-- The state in which the next fetch is in range and not ignored: itself for a running engine with PC at
most 0x0FFE, else the latch is cleared, and PC put at the origin (log 14). -/
def State.readyToFetch (s : State) : State :=
  let s := if s.halted then { s with halted := false, faultCause := .none, faultPc := 0, faultWord := 0 } else s
  if s.fetch.isSome then s else s.writePC (BitVec.ofNat 16 Config.origin)

/-- A state with a word placed at the two bytes PC and PC + 1 (20_memory.md R32). -/
def State.placeWord (w : Word) (s : State) : State :=
  { s with mem := s.mem.writeBytes s.pc.toNat (bytesOfWord w) }

end Sys2Proof.Machine
end

