-- ==== Sys2Proof/Machine/Step.lean ====
section
/-! DEFINITION. One step of the machine, and the state in which the next step runs a given word. -/

namespace Sys2Proof.Machine

/-- One step: the operation `step()` of 40_execute_cycle.md R70, one cycle for one invocation, with no time in it
(70_reset_and_hazards.md R173). -/
def step (s : State) : Host.Outcome State Fault Refusal := fetchCycle s

/-- `s` with the instruction whose table bits are `w` stored where `step` fetches its next instruction
(log 14). -/
def State.withFetchWord (s : State) (nbits w : Nat) : State :=
  s.readyToFetch.placeWord (tableWord nbits w)

end Sys2Proof.Machine
end

