-- ==== Sys2Proof/Machine/HostPort.lean ====
section
/-! DEFINITION. The operations the outside world can perform on the machine (70_reset_and_hazards.md R160 to
R168), each one atomic transition between two cycles. -/

namespace Sys2Proof.Machine

/-- The operations that can change the state (70_reset_and_hazards.md section 1). The argument types are the
widths of the ports (R165). -/
inductive HostOp where
  /-- `reset()` (R160). -/
  | reset
  /-- `load(payload)` (R162). -/
  | load (payload : List Byte)
  /-- `step()` (40_execute_cycle.md R70). -/
  | step
  /-- `execute(word)` (40_execute_cycle.md R71). -/
  | execute (w : Word)
  /-- `write_V(i, v)` (R165). -/
  | writeV (r : RegIndex) (b : Byte)
  /-- `write_I(v)` (R165). -/
  | writeI (w : Word)
  /-- `write_PC(v)` (R165). -/
  | writePC (w : Word)
  /-- `write_mem(addr, v)` (R165). -/
  | writeMem (a : Addr) (b : Byte)
  deriving DecidableEq, Repr

/-- `load(payload)` (70_reset_and_hazards.md R162): the length is checked before any byte is written. -/
def hostLoad (payload : List Byte) (s : State) : State :=
  if s.halted then s
  else if payload.length > Config.loadCapacity then s.raiseProgramTooLarge
  else { s with mem := s.mem.writeBytes Config.origin payload }

/-- A host write: ignored while halted (70_reset_and_hazards.md R165, 60_exceptions.md R135). -/
def hostWrite (f : State → State) (s : State) : State := if s.halted then s else f s

/-- `reset()` (70_reset_and_hazards.md R160): the reset state, whatever the state before. -/
def hostReset (_ : State) : State := State.reset

/-- One host operation. -/
def operate (o : HostOp) (s : State) : Host.Outcome State Fault Refusal :=
  match o with
  | .reset => .next (hostReset s)
  | .load payload => .next (hostLoad payload s)
  | .step => Sys2Proof.Machine.step s
  | .execute w => Sys2Proof.Machine.execute w s
  | .writeV r b => .next (hostWrite (State.writeV r b) s)
  | .writeI w => .next (hostWrite (State.writeI w) s)
  | .writePC w => .next (hostWrite (State.writePC w) s)
  | .writeMem a b => .next (hostWrite (State.memWrite a b) s)

/-- The instruction that an operation runs in a state: at most one, and only `step` and `execute` run any
(70_reset_and_hazards.md R173, "Every instruction is one invocation of `step` or `execute`"; R163). A halted engine
runs none (60_exceptions.md R135). That `operate` then is that instruction's handler is `operate_of_instruction`. -/
def HostOp.instruction (o : HostOp) (s : State) : Option Instr :=
  if s.halted then none
  else
    match o with
    | .step => s.fetch.bind fun w => (decode w).toOption
    | .execute w => (decode w).toOption
    | .reset | .load _ | .writeV _ _ | .writeI _ | .writePC _ | .writeMem _ _ => none

/-- A run: the host's operations one after another (70_reset_and_hazards.md R163, R166). Its length is a count of
invocations and no time; it ends where the host ceases to invoke, and for no other reason (R169, R173). -/
def hostRun : List HostOp → State → Host.Outcome State Fault Refusal
  | [], s => .next s
  | o :: os, s =>
    match operate o s with
    | .next t => hostRun os t
    | .fault f => .fault f
    | .refused r => .refused r

/-- `read_V(i)` (70_reset_and_hazards.md R164). A read has no side effect and works while halted. -/
def hostReadV (s : State) (r : RegIndex) : Byte := s.readV r

/-- `read_I()` (70_reset_and_hazards.md R164). -/
def hostReadI (s : State) : Word := s.i

/-- `read_PC()` (70_reset_and_hazards.md R164). -/
def hostReadPC (s : State) : Word := s.pc

/-- `read_mem(addr)` (70_reset_and_hazards.md R164): a 12-bit address is always in range. -/
def hostReadMem (s : State) (a : Addr) : Byte := s.mem.read a.toNat

/-- `read_fault()` (70_reset_and_hazards.md R164): halted, the 2-bit fault_cause, fault_pc, fault_word. -/
def hostReadFault (s : State) : Bool × BitVec 2 × Word × Word :=
  (s.halted, s.faultCause.code, s.faultPc, s.faultWord)

end Sys2Proof.Machine
end

