-- ==== Sys2Proof/Safety.lean ====
section
/-! DEFINITION. The terms the statements about safe runs use: a running engine, the invariant of the
reachable states, and the states a host can reach. -/

namespace Sys2Proof.Machine

/-- No error is latched, so operations have effect (60_exceptions.md R135). -/
abbrev State.Running (s : State) : Prop := s.halted = false

/-- What the fault latch says is true of the state: 10_state.md R18 (halted exactly when there is a cause, all
zero while running) and what each error of 60_exceptions.md R131 to R133 records, which nothing changes
afterwards (R135). -/
def State.LatchTruthful (s : State) : Prop :=
  match s.faultCause with
  | .none => s.halted = false ∧ s.faultPc = 0 ∧ s.faultWord = 0
  | .unimplementedOpcode =>
    s.halted = true ∧ s.pc = s.faultPc + 2 ∧ (fieldsOf s.faultWord).mapped = false
  | .outOfBoundsAddress =>
    s.halted = true ∧ s.pc = s.faultPc ∧ 0x0FFE < s.faultPc.toNat ∧ s.faultWord = 0
  | .programTooLarge => s.halted = true ∧ s.pc = s.faultPc ∧ s.faultWord = 0

/-- The invariant of the machine: memory is in its canonical form, with every listed cell inside the 4096
bytes (10_state.md R20), and the latch tells the truth (R18, R24). -/
def State.Inv (s : State) : Prop := s.mem.wf = true ∧ s.LatchTruthful

/-- The registers an instruction reads: those whose value before it the result depends on (10_state.md R12). -/
def regReads : Instr → List RegIndex
  | .jp _ | .ldImm _ _ => []
  | .seImm x _ | .sneImm x _ | .addImm x _ | .shr x _ | .shl x _ => [x]
  | .ldReg _ y => [y]
  | .seReg x y | .or x y | .and x y | .xor x y | .addReg x y | .sub x y | .subn x y => [x, y]

/-- The registers an instruction writes, VF as a side effect included (10_state.md R12). -/
def regWrites : Instr → List RegIndex
  | .jp _ | .seImm _ _ | .sneImm _ _ | .seReg _ _ => []
  | .ldImm x _ | .addImm x _ | .ldReg x _ | .or x _ | .and x _ | .xor x _ => [x]
  | .addReg x _ | .sub x _ | .shr x _ | .subn x _ | .shl x _ => [x, Config.flagReg]

/-- The states a host can reach from reset by any sequence of operations (70_reset_and_hazards.md R166). -/
inductive Reachable : State → Prop where
  | reset : Reachable State.reset
  | operation (o : HostOp) (s t : State) : Reachable s → operate o s = .next t → Reachable t

end Sys2Proof.Machine
end

