-- ==== Sys2Proof/Certificates/Slice0/Obligations.lean ====
section
/-! DEFINITION. The statements about the machine, from the numbered rules of spec/. A running engine is one
with `halted = false` (10_state.md R18). -/

open Sys2Proof Sys2Proof.Machine

/-! ### Encoding -/

/-- Decode and encode agree: the word of every instruction, with every operand at every value, decodes to it,
and so do the two bytes of that word in memory order (30_encoding.md R55, R57; 20_memory.md R32). Every term
of `Instr` is well-formed. That SHR and SHL keep the ignored Y is the model's choice (log 16). -/
def Obligations.DecodeOfEncodeIsTheInstruction : Prop :=
  ∀ i : Instr, decode (encode i) = .ok i ∧ decodeBytes (bytesOfWord (encode i)) = .ok (i, [])

/-- Every legal word is the encoding of the instruction it decodes to: no two words are one instruction. -/
def Obligations.EncodeOfDecodeIsTheWord : Prop :=
  ∀ (w : Word) (i : Instr), decode w = .ok i → encode i = w

/-- 30_encoding.md R55: a word is the instruction of a row exactly when it has the row's match value under the
row's mask, with X in bits 11 to 8, Y in bits 7 to 4, NN in bits 7 to 0, NNN in bits 11 to 0; the rows are disjoint, and
a word that matches none is no instruction. That class 5 fixes N to 0 is also the spec's decision D2 (log 6). -/
def Obligations.WordIsRowExactlyWhenMaskMatches : Prop :=
  ∀ w : Word,
    let x : RegIndex := ⟨(w.toNat >>> 8) % 16, Nat.mod_lt _ (by decide)⟩
    let y : RegIndex := ⟨(w.toNat >>> 4) % 16, Nat.mod_lt _ (by decide)⟩
    let nn : Byte := BitVec.ofNat 8 w.toNat
    let nnn : Addr := BitVec.ofNat 12 w.toNat
    (w &&& 0xF000 = 0x1000 ↔ decode w = .ok (.jp nnn)) ∧
    (w &&& 0xF000 = 0x3000 ↔ decode w = .ok (.seImm x nn)) ∧
    (w &&& 0xF000 = 0x4000 ↔ decode w = .ok (.sneImm x nn)) ∧
    (w &&& 0xF00F = 0x5000 ↔ decode w = .ok (.seReg x y)) ∧
    (w &&& 0xF000 = 0x6000 ↔ decode w = .ok (.ldImm x nn)) ∧
    (w &&& 0xF000 = 0x7000 ↔ decode w = .ok (.addImm x nn)) ∧
    (w &&& 0xF00F = 0x8000 ↔ decode w = .ok (.ldReg x y)) ∧
    (w &&& 0xF00F = 0x8001 ↔ decode w = .ok (.or x y)) ∧
    (w &&& 0xF00F = 0x8002 ↔ decode w = .ok (.and x y)) ∧
    (w &&& 0xF00F = 0x8003 ↔ decode w = .ok (.xor x y)) ∧
    (w &&& 0xF00F = 0x8004 ↔ decode w = .ok (.addReg x y)) ∧
    (w &&& 0xF00F = 0x8005 ↔ decode w = .ok (.sub x y)) ∧
    (w &&& 0xF00F = 0x8006 ↔ decode w = .ok (.shr x y)) ∧
    (w &&& 0xF00F = 0x8007 ↔ decode w = .ok (.subn x y)) ∧
    (w &&& 0xF00F = 0x800E ↔ decode w = .ok (.shl x y)) ∧
    ((∃ i, decode w = .ok i) ↔
      w &&& 0xF000 ∈ [0x1000, 0x3000, 0x4000, 0x6000, 0x7000] ∨
      w &&& 0xF00F ∈ [0x5000, 0x8000, 0x8001, 0x8002, 0x8003, 0x8004, 0x8005, 0x8006, 0x8007, 0x800E])

/-- The words that are no instruction are those of three groups (30_encoding.md R54, R56, R58, R59): an unmapped
class; class 0x8 with an unmapped N; class 0x5 with N not 0. That the third group is illegal is the spec's own
decision (D2; log 6); that the decoder names the groups apart is the model's choice (log 18). -/
def Obligations.IllegalWordsAreTheThreeGroups : Prop :=
  ∀ w : Word,
    ((∃ c, decode w = .error (.unmappedClass c)) ↔
      w.toNat / 4096 ∈ [0x0, 0x2, 0x9, 0xA, 0xB, 0xC, 0xD, 0xE, 0xF]) ∧
    ((∃ n, decode w = .error (.unmappedAluOp n)) ↔
      w.toNat / 4096 = 0x8 ∧ w.toNat % 16 ∈ [0x8, 0x9, 0xA, 0xB, 0xC, 0xD, 0xF]) ∧
    ((∃ n, decode w = .error (.nonzeroSkipField n)) ↔ w.toNat / 4096 = 0x5 ∧ w.toNat % 16 ≠ 0) ∧
    decode w ≠ .error .truncated

/-- The dispatcher takes exactly the words whose fields pass the well-formedness check (30_encoding.md R50, R54,
R56): the decoder's fields always overlap as R50 says, and the class and N decide the rest. -/
def Obligations.WordDecodesExactlyWhenFieldsWellFormed : Prop :=
  ∀ w : Word, (∃ i, decode w = .ok i) ↔ (fieldsOf w).wellFormed = true

/-- For any X and Y, 90 of the 256 pairs of class and N are legal; each pair has 256 words, so 23040 of the 65536
words are legal (30_encoding.md R60). -/
def Obligations.LegalWordCount : Prop :=
  ∀ x y : RegIndex,
    256 * (List.range 256).countP
      (fun k => (fieldsOf (wordXYN (BitVec.ofNat 4 (k / 16)) x y (BitVec.ofNat 4 (k % 16)))).mapped) = 23040

/-- 30_encoding.md R51: the decoder is total, and each field is its range of bits of the word. -/
def Obligations.DecoderFieldsAreBitRanges : Prop :=
  ∀ w : Word,
    (fieldsOf w).cls.toNat = (w.toNat >>> 12) &&& 0xF ∧
    (fieldsOf w).x.toNat = (w.toNat >>> 8) &&& 0xF ∧
    (fieldsOf w).y.toNat = (w.toNat >>> 4) &&& 0xF ∧
    (fieldsOf w).n.toNat = w.toNat &&& 0xF ∧
    (fieldsOf w).nn.toNat = w.toNat &&& 0xFF ∧
    (fieldsOf w).nnn.toNat = w.toNat &&& 0xFFF

/-- 30_encoding.md R64: the source's five decoding examples, with the instruction each of them is. -/
def Obligations.SourceExampleWordsDecode : Prop :=
  ((fieldsOf 0x3AFF).cls = 0x3 ∧ (fieldsOf 0x3AFF).x = 0xA ∧ (fieldsOf 0x3AFF).nn = 0xFF ∧
    decode 0x3AFF = .ok (.seImm 0xA 0xFF)) ∧
  ((fieldsOf 0x8AE4).cls = 0x8 ∧ (fieldsOf 0x8AE4).x = 0xA ∧ (fieldsOf 0x8AE4).y = 0xE ∧
    (fieldsOf 0x8AE4).n = 0x4 ∧ decode 0x8AE4 = .ok (.addReg 0xA 0xE)) ∧
  ((fieldsOf 0x8AE6).cls = 0x8 ∧ (fieldsOf 0x8AE6).x = 0xA ∧ (fieldsOf 0x8AE6).y = 0xE ∧
    (fieldsOf 0x8AE6).n = 0x6 ∧ decode 0x8AE6 = .ok (.shr 0xA 0xE)) ∧
  ((fieldsOf 0x8AEE).cls = 0x8 ∧ (fieldsOf 0x8AEE).x = 0xA ∧ (fieldsOf 0x8AEE).y = 0xE ∧
    (fieldsOf 0x8AEE).n = 0xE ∧ decode 0x8AEE = .ok (.shl 0xA 0xE)) ∧
  ((fieldsOf 0x1FFF).cls = 0x1 ∧ (fieldsOf 0x1FFF).nnn = 0xFFF ∧ decode 0x1FFF = .ok (.jp 0xFFF))

/-! ### The cycle -/

/-- The word of a fetch is the big-endian composition of the bytes at PC and PC + 1, wherever PC is, odd addresses
included (20_memory.md R32, R33; that no alignment is needed is the spec's decision D13, log 20). -/
def Obligations.FetchIsBigEndianAtAnyAddress : Prop :=
  ∀ (s : State) (hi lo : Byte),
    s.memRead s.pc.toNat = some hi → s.memRead (s.pc.toNat + 1) = some lo →
    ∃ w, s.fetch = some w ∧ w.toNat = hi.toNat * 256 + lo.toNat

/-- A step of a running engine whose two bytes at PC decode to an instruction is that instruction's handler on
the state with PC advanced by 2 (40_execute_cycle.md R70, R74). -/
def Obligations.StepRunsTheDecodedInstruction : Prop :=
  ∀ (s : State) (hi lo : Byte) (i : Instr),
    s.halted = false → s.memRead s.pc.toNat = some hi → s.memRead (s.pc.toNat + 1) = some lo →
    decodeBytes [hi, lo] = .ok (i, []) →
    step s = exec i { s with pc := s.pc + 2 }

/-- An injected word that decodes to an instruction runs that instruction's handler on the state with PC advanced
by 2, whatever PC is and whatever memory holds (40_execute_cycle.md R71, R74). -/
def Obligations.ExecuteRunsTheDecodedInstruction : Prop :=
  ∀ (s : State) (w : Word) (i : Instr),
    s.halted = false → decode w = .ok i → execute w s = exec i { s with pc := s.pc + 2 }

/-- The two entry points agree: where the fetch finds a word, `step` does what `execute` does on that word
(40_execute_cycle.md R71), halted or not. -/
def Obligations.StepIsExecuteOfTheFetchedWord : Prop :=
  ∀ (s : State) (w : Word), s.fetch = some w → step s = execute w s

/-- 40_execute_cycle.md R75: a cycle is a total deterministic function of the state and, for `execute`, of the
word; no state and no word makes it stop. -/
def Obligations.EveryCycleHasExactlyOnePostState : Prop :=
  ∀ s : State, (∃! t, step s = .next t) ∧ ∀ w : Word, ∃! t, execute w s = .next t

/-- Where a step that runs an instruction leaves PC, by the table of 10_state.md R16: the jump at its target, a taken
skip at `a + 4`, everything else at `a + 2`. -/
def Obligations.PcAfterAnInstruction : Prop :=
  ∀ (s : State) (w : Word) (i : Instr),
    s.halted = false → s.fetch = some w → decode w = .ok i →
    ∃ t, step s = .next t ∧
      t.pc = match i with
        | .jp nnn => BitVec.ofNat 16 nnn.toNat
        | .seImm x nn => if s.readV x = nn then s.pc + 4 else s.pc + 2
        | .sneImm x nn => if s.readV x = nn then s.pc + 2 else s.pc + 4
        | .seReg x y => if s.readV x = s.readV y then s.pc + 4 else s.pc + 2
        | _ => s.pc + 2

/-- In fetch-driven execution PC never passes 0x1002 while no error is raised (10_state.md R17), so the 16-bit wrap
is not reached by steps. -/
def Obligations.SteppedPcIsAtMost1002 : Prop :=
  ∀ s t : State, s.halted = false → step s = .next t → t.halted = false → t.pc.toNat ≤ 0x1002

/-! ### Jump and skips: the result statements say where the instruction completes, and its whole effect -/

/-- 41_control_transfer.md R90, JP: PC becomes NNN, zero-extended, and nothing else changes; on an injected word
of the pattern 1NNN too. -/
def Obligations.JumpSetsPcToNnn : Prop :=
  ∀ (s : State) (nnn : Addr),
    exec (.jp nnn) s = .next { s with pc := BitVec.ofNat 16 nnn.toNat } ∧
    (s.halted = false → execute (0x1#4 ++ nnn) s = .next { s with pc := BitVec.ofNat 16 nnn.toNat })

/-- 41_control_transfer.md R91, SE_IMM: PC goes 2 further if V[X] equals NN, nothing else changes; an injected
word of the pattern 3XNN leaves PC at `a + 4` or `a + 2`. -/
def Obligations.SkipIfEqualImmediate : Prop :=
  ∀ (s : State) (x : RegIndex) (nn : Byte),
    exec (.seImm x nn) s = .next { s with pc := if s.readV x = nn then s.pc + 2 else s.pc } ∧
    (s.halted = false → execute (0x3#4 ++ BitVec.ofNat 4 x ++ nn) s =
      .next { s with pc := if s.readV x = nn then s.pc + 4 else s.pc + 2 })

/-- 41_control_transfer.md R92, SNE_IMM: PC goes 2 further if V[X] differs from NN, nothing else changes; it skips
exactly where SE_IMM does not. -/
def Obligations.SkipIfNotEqualImmediate : Prop :=
  ∀ (s : State) (x : RegIndex) (nn : Byte),
    exec (.sneImm x nn) s = .next { s with pc := if s.readV x = nn then s.pc else s.pc + 2 } ∧
    (s.halted = false → execute (0x4#4 ++ BitVec.ofNat 4 x ++ nn) s =
      .next { s with pc := if s.readV x = nn then s.pc + 2 else s.pc + 4 }) ∧
    ∃ t u, exec (.seImm x nn) s = .next t ∧ exec (.sneImm x nn) s = .next u ∧
      ((t.pc = s.pc + 2 ∧ u.pc = s.pc) ∨ (t.pc = s.pc ∧ u.pc = s.pc + 2))

/-- 41_control_transfer.md R93, SE_REG: PC goes 2 further if V[X] equals V[Y], always so for X = Y, and nothing
else changes. -/
def Obligations.SkipIfRegistersEqual : Prop :=
  ∀ (s : State) (x y : RegIndex),
    exec (.seReg x y) s = .next { s with pc := if s.readV x = s.readV y then s.pc + 2 else s.pc } ∧
    (s.halted = false → execute (0x5#4 ++ BitVec.ofNat 4 x ++ BitVec.ofNat 4 y ++ 0x0#4) s =
      .next { s with pc := if s.readV x = s.readV y then s.pc + 4 else s.pc + 2 }) ∧
    (s.halted = false → execute (0x5#4 ++ BitVec.ofNat 4 x ++ BitVec.ofNat 4 x ++ 0x0#4) s =
      .next { s with pc := s.pc + 4 })

/-! ### Immediates -/

/-- 42_immediate.md R100, LD_IMM: V[X] becomes NN, VF too when X is 0xF, and nothing else changes but PC. -/
def Obligations.LoadImmediateSetsRegister : Prop :=
  ∀ (s : State) (x : RegIndex) (nn : Byte),
    exec (.ldImm x nn) s = .next { s with v := s.v.set x nn } ∧
    (s.halted = false → execute (0x6#4 ++ BitVec.ofNat 4 x ++ nn) s =
      .next { s with v := s.v.set x nn, pc := s.pc + 2 })

/-- 42_immediate.md R101, ADD_IMM: V[X] becomes the exact sum modulo 256, no flag is written (VF changes only as the
destination), and nothing else changes but PC. -/
def Obligations.AddImmediateWrapsWithoutFlag : Prop :=
  ∀ (s : State) (x : RegIndex) (nn : Byte),
    let sum := (s.readV x).toNat + nn.toNat
    let result : Byte := BitVec.ofNat 8 (if sum ≤ 255 then sum else sum - 256)
    exec (.addImm x nn) s = .next { s with v := s.v.set x result } ∧
    (s.halted = false → execute (0x7#4 ++ BitVec.ofNat 4 x ++ nn) s =
      .next { s with v := s.v.set x result, pc := s.pc + 2 })

/-! ### The ALU -/

/-- 43_alu.md R111, LD_REG: V[X] becomes V[Y], no flag is written, nothing else changes but PC. -/
def Obligations.CopySetsRegister : Prop :=
  ∀ (s : State) (x y : RegIndex),
    exec (.ldReg x y) s = .next { s with v := s.v.set x (s.readV y) } ∧
    (s.halted = false → execute (0x8#4 ++ BitVec.ofNat 4 x ++ BitVec.ofNat 4 y ++ 0x0#4) s =
      .next { s with v := s.v.set x (s.readV y), pc := s.pc + 2 })

/-- 43_alu.md R112, OR: bit k of the new V[X] is the OR of the old bits k of V[X] and V[Y], no flag is written,
nothing else changes but PC. -/
def Obligations.OrIsBitwise : Prop :=
  ∀ (s : State) (x y : RegIndex), ∃ r : Byte,
    (∀ k, r.getLsbD k = ((s.readV x).getLsbD k || (s.readV y).getLsbD k)) ∧
    exec (.or x y) s = .next { s with v := s.v.set x r } ∧
    (s.halted = false → execute (0x8#4 ++ BitVec.ofNat 4 x ++ BitVec.ofNat 4 y ++ 0x1#4) s =
      .next { s with v := s.v.set x r, pc := s.pc + 2 })

/-- 43_alu.md R113, AND: as OR, with the AND of the bits. -/
def Obligations.AndIsBitwise : Prop :=
  ∀ (s : State) (x y : RegIndex), ∃ r : Byte,
    (∀ k, r.getLsbD k = ((s.readV x).getLsbD k && (s.readV y).getLsbD k)) ∧
    exec (.and x y) s = .next { s with v := s.v.set x r } ∧
    (s.halted = false → execute (0x8#4 ++ BitVec.ofNat 4 x ++ BitVec.ofNat 4 y ++ 0x2#4) s =
      .next { s with v := s.v.set x r, pc := s.pc + 2 })

/-- 43_alu.md R114, XOR: as OR, with the exclusive OR of the bits; X = Y clears the register. -/
def Obligations.XorIsBitwise : Prop :=
  ∀ (s : State) (x y : RegIndex), ∃ r : Byte,
    (∀ k, r.getLsbD k = ((s.readV x).getLsbD k ^^ (s.readV y).getLsbD k)) ∧
    exec (.xor x y) s = .next { s with v := s.v.set x r } ∧
    (s.halted = false → execute (0x8#4 ++ BitVec.ofNat 4 x ++ BitVec.ofNat 4 y ++ 0x3#4) s =
      .next { s with v := s.v.set x r, pc := s.pc + 2 }) ∧
    (x = y → r = 0)

/-- 43_alu.md R115, ADD_REG with X from 0 to 0xE: V[X] becomes the sum modulo 256 and VF 1 when the sum exceeds
255, else 0, with `256 * VF' + V[X]' = V[X] + V[Y]`; nothing else changes but PC. X = 0xF is
`ArithmeticIntoVfLeavesTheFlag`. -/
def Obligations.AddRegisterSetsCarry : Prop :=
  ∀ (s : State) (x y : RegIndex), x ≠ 0xF → ∃ r c : Byte,
    c = (if (s.readV x).toNat + (s.readV y).toNat > 255 then 1 else 0) ∧
    256 * c.toNat + r.toNat = (s.readV x).toNat + (s.readV y).toNat ∧
    exec (.addReg x y) s = .next { s with v := (s.v.set x r).set 0xF c } ∧
    (s.halted = false → execute (0x8#4 ++ BitVec.ofNat 4 x ++ BitVec.ofNat 4 y ++ 0x4#4) s =
      .next { s with v := (s.v.set x r).set 0xF c, pc := s.pc + 2 })

/-- 43_alu.md R116, SUB with X from 0 to 0xE: V[X] becomes the difference modulo 256 and VF 1 exactly when
V[X] >= V[Y] before, with `V[X]' = V[X] - V[Y] + 256 * (1 - VF')`; nothing else changes but PC. X = 0xF is
`ArithmeticIntoVfLeavesTheFlag`. -/
def Obligations.SubtractSetsNoBorrow : Prop :=
  ∀ (s : State) (x y : RegIndex), x ≠ 0xF → ∃ r c : Byte,
    c = (if (s.readV x).toNat ≥ (s.readV y).toNat then 1 else 0) ∧
    (r.toNat : Int) = (s.readV x).toNat - (s.readV y).toNat + 256 * (1 - c.toNat) ∧
    exec (.sub x y) s = .next { s with v := (s.v.set x r).set 0xF c } ∧
    (s.halted = false → execute (0x8#4 ++ BitVec.ofNat 4 x ++ BitVec.ofNat 4 y ++ 0x5#4) s =
      .next { s with v := (s.v.set x r).set 0xF c, pc := s.pc + 2 })

/-- 43_alu.md R117, SHR with X from 0 to 0xE, any Y: V[X] becomes V[X] shifted right one place, a zero at the
top, and VF the old bit 0, with `2 * V[X]' + VF' = V[X]`; nothing else changes but PC. X = 0xF is
`ShiftIntoVfLeavesTheShiftedValue`. -/
def Obligations.ShiftRightCapturesLowBit : Prop :=
  ∀ (s : State) (x y : RegIndex), x ≠ 0xF → ∃ r c : Byte,
    c.toNat ≤ 1 ∧ 2 * r.toNat + c.toNat = (s.readV x).toNat ∧
    exec (.shr x y) s = .next { s with v := (s.v.set 0xF c).set x r } ∧
    (s.halted = false → execute (0x8#4 ++ BitVec.ofNat 4 x ++ BitVec.ofNat 4 y ++ 0x6#4) s =
      .next { s with v := (s.v.set 0xF c).set x r, pc := s.pc + 2 })

/-- 43_alu.md R118, SUBN with X from 0 to 0xE: V[X] becomes V[Y] - V[X] modulo 256 and VF 1 exactly when
V[Y] >= V[X] before; nothing else changes but PC. X = 0xF is `ArithmeticIntoVfLeavesTheFlag`. -/
def Obligations.ReverseSubtractSetsNoBorrow : Prop :=
  ∀ (s : State) (x y : RegIndex), x ≠ 0xF → ∃ r c : Byte,
    c = (if (s.readV y).toNat ≥ (s.readV x).toNat then 1 else 0) ∧
    (r.toNat : Int) = (s.readV y).toNat - (s.readV x).toNat + 256 * (1 - c.toNat) ∧
    exec (.subn x y) s = .next { s with v := (s.v.set x r).set 0xF c } ∧
    (s.halted = false → execute (0x8#4 ++ BitVec.ofNat 4 x ++ BitVec.ofNat 4 y ++ 0x7#4) s =
      .next { s with v := (s.v.set x r).set 0xF c, pc := s.pc + 2 })

/-- 43_alu.md R119, SHL with X from 0 to 0xE, any Y: V[X] becomes V[X] doubled modulo 256 and VF the old bit 7,
with `256 * VF' + V[X]' = 2 * V[X]`; nothing else changes but PC. X = 0xF is
`ShiftIntoVfLeavesTheShiftedValue`. -/
def Obligations.ShiftLeftCapturesHighBit : Prop :=
  ∀ (s : State) (x y : RegIndex), x ≠ 0xF → ∃ r c : Byte,
    256 * c.toNat + r.toNat = 2 * (s.readV x).toNat ∧
    exec (.shl x y) s = .next { s with v := (s.v.set 0xF c).set x r } ∧
    (s.halted = false → execute (0x8#4 ++ BitVec.ofNat 4 x ++ BitVec.ofNat 4 y ++ 0xE#4) s =
      .next { s with v := (s.v.set 0xF c).set x r, pc := s.pc + 2 })

/-- ADD_REG, SUB and SUBN with destination VF leave the flag in VF and lose the result (43_alu.md R123). That the
operands are read first and the flag written last is the spec's own decision D6 (log 5). -/
def Obligations.ArithmeticIntoVfLeavesTheFlag : Prop :=
  ∀ (s : State) (y : RegIndex),
    exec (.addReg 0xF y) s =
      .next { s with v := s.v.set 0xF (if (s.readV 0xF).toNat + (s.readV y).toNat > 255 then 1 else 0) } ∧
    exec (.sub 0xF y) s =
      .next { s with v := s.v.set 0xF (if (s.readV 0xF).toNat ≥ (s.readV y).toNat then 1 else 0) } ∧
    exec (.subn 0xF y) s =
      .next { s with v := s.v.set 0xF (if (s.readV y).toNat ≥ (s.readV 0xF).toNat then 1 else 0) }

/-- SHR and SHL with destination VF leave the shifted value in VF and lose the flag (43_alu.md R124). This is the
spec's own decision D6 among three readings of its source (U1; log 4). -/
def Obligations.ShiftIntoVfLeavesTheShiftedValue : Prop :=
  ∀ (s : State) (y : RegIndex),
    exec (.shr 0xF y) s = .next { s with v := s.v.set 0xF (BitVec.ofNat 8 ((s.readV 0xF).toNat / 2)) } ∧
    exec (.shl 0xF y) s = .next { s with v := s.v.set 0xF (BitVec.ofNat 8 (2 * (s.readV 0xF).toNat % 256)) }

/-- SUBN(X, Y) computes the difference and the flag that SUB(Y, X) would (43_alu.md R118): the flags are equal for
every X and Y, the results where neither is VF, in which the flag stays instead (R123, decision D6; log 5). -/
def Obligations.SubnMirrorsSub : Prop :=
  ∀ (s : State) (x y : RegIndex), ∃ t u,
    exec (.subn x y) s = .next t ∧ exec (.sub y x) s = .next u ∧ t.readV 0xF = u.readV 0xF ∧
    (x ≠ 0xF → y ≠ 0xF → t.readV x = u.readV y)

/-- SHL leaves the very state that ADD_REG with X = Y leaves, for X from 0 to 0xE (43_alu.md R119), although
the two write result and flag in opposite order. -/
def Obligations.ShiftLeftIsAddToItself : Prop :=
  ∀ (s : State) (x y : RegIndex), x ≠ 0xF →
    ∃ t, exec (.shl x y) s = .next t ∧ exec (.addReg x x) s = .next t

/-- Which registers an instruction reads and writes, by the table of 10_state.md R12 (`regReads`, `regWrites`): a
register not written keeps its value; the value of a register not read has no effect but to stay where it is,
or to be overwritten where the instruction writes it. -/
def Obligations.RegistersReadAndWritten : Prop :=
  ∀ (i : Instr) (s : State) (r : RegIndex) (b : Byte), ∃ t, exec i s = .next t ∧
    (r ∉ regWrites i → t.readV r = s.readV r) ∧
    (r ∉ regReads i → r ∉ regWrites i → exec i (s.writeV r b) = .next (t.writeV r b)) ∧
    (r ∉ regReads i → r ∈ regWrites i → exec i (s.writeV r b) = .next t)

/-- The shifts do not depend on Y: neither on the field (30_encoding.md R57) nor on the value of V[Y], where Y is
neither X nor VF. -/
def Obligations.ShiftsAreIndependentOfY : Prop :=
  ∀ (s : State) (x y z : RegIndex) (b : Byte), ∃ t u,
    exec (.shr x y) s = .next t ∧ exec (.shr x z) s = .next t ∧
    exec (.shl x y) s = .next u ∧ exec (.shl x z) s = .next u ∧
    (y ≠ x → y ≠ 0xF →
      exec (.shr x y) (s.writeV y b) = .next (t.writeV y b) ∧ exec (.shl x y) (s.writeV y b) = .next (u.writeV y b))

/-- The flag register (10_state.md R13): the five flag-writing instructions leave VF 0 or 1 (a shift whose
destination is VF apart, decision D6, log 4), the other ten leave VF alone unless it is their destination. -/
def Obligations.FlagRegisterWrites : Prop :=
  ∀ (s : State) (i : Instr), ∃ t, exec i s = .next t ∧
    match i with
    | .addReg _ _ | .sub _ _ | .subn _ _ => t.readV 0xF = 0 ∨ t.readV 0xF = 1
    | .shr x _ | .shl x _ => x ≠ 0xF → t.readV 0xF = 0 ∨ t.readV 0xF = 1
    | .jp _ | .seImm _ _ | .sneImm _ _ | .seReg _ _ => t.readV 0xF = s.readV 0xF
    | .ldImm x _ | .addImm x _ | .ldReg x _ | .or x _ | .and x _ | .xor x _ =>
      x ≠ 0xF → t.readV 0xF = s.readV 0xF

/-- The new carry is seen by the very next instruction (70_reset_and_hazards.md R170): `8XY4` and then `3F01`
leave PC 6 further if the sum carried, 4 further if not. For X = 0xF this rests on decision D6 (log 5). -/
def Obligations.NextInstructionTestsTheCarry : Prop :=
  ∀ (s : State) (x y : RegIndex), s.halted = false → ∃ t u,
    execute (0x8#4 ++ BitVec.ofNat 4 x ++ BitVec.ofNat 4 y ++ 0x4#4) s = .next t ∧
    execute 0x3F01 t = .next u ∧
    u.pc = if (s.readV x).toNat + (s.readV y).toNat > 255 then s.pc + 6 else s.pc + 4

/-! ### Frames -/

/-- The frame of JP, SE_IMM, SNE_IMM, SE_REG (41_control_transfer.md R90 to R93): only PC may change. -/
def Obligations.ControlTransferFrame : Prop :=
  ∀ (i : Instr) (s t : State),
    ((∃ nnn, i = .jp nnn) ∨ (∃ x nn, i = .seImm x nn) ∨ (∃ x nn, i = .sneImm x nn) ∨ (∃ x y, i = .seReg x y)) →
    exec i s = .next t →
    (∀ r, t.readV r = s.readV r) ∧ t.i = s.i ∧ t.halted = s.halted ∧ t.faultCause = s.faultCause ∧
    t.faultPc = s.faultPc ∧ t.faultWord = s.faultWord ∧ ∀ a, t.memRead a = s.memRead a

/-- The frame of LD_IMM, ADD_IMM, LD_REG, OR, AND, XOR (42_immediate.md R100, R101; 43_alu.md R126): only V[X] may
change, VF included in what stays unless X is 0xF; PC is as the advance left it. -/
def Obligations.PlainRegisterWriteFrame : Prop :=
  ∀ (i : Instr) (x : RegIndex) (s t : State),
    ((∃ nn, i = .ldImm x nn ∨ i = .addImm x nn) ∨
      ∃ y, i = .ldReg x y ∨ i = .or x y ∨ i = .and x y ∨ i = .xor x y) →
    exec i s = .next t →
    (∀ r, r ≠ x → t.readV r = s.readV r) ∧ t.i = s.i ∧ t.pc = s.pc ∧ t.halted = s.halted ∧
    t.faultCause = s.faultCause ∧ t.faultPc = s.faultPc ∧ t.faultWord = s.faultWord ∧
    ∀ a, t.memRead a = s.memRead a

/-- The frame of ADD_REG, SUB, SHR, SUBN, SHL (43_alu.md R126): only V[X] and VF may change; PC is as the
advance left it. -/
def Obligations.FlagWritingFrame : Prop :=
  ∀ (i : Instr) (x : RegIndex) (s t : State),
    (∃ y, i = .addReg x y ∨ i = .sub x y ∨ i = .shr x y ∨ i = .subn x y ∨ i = .shl x y) →
    exec i s = .next t →
    (∀ r, r ≠ x → r ≠ 0xF → t.readV r = s.readV r) ∧ t.i = s.i ∧ t.pc = s.pc ∧ t.halted = s.halted ∧
    t.faultCause = s.faultCause ∧ t.faultPc = s.faultPc ∧ t.faultWord = s.faultWord ∧
    ∀ a, t.memRead a = s.memRead a

/-- No step writes memory (20_memory.md R35), and a step depends on no byte of memory but the two at PC and PC + 1
(40_execute_cycle.md R70): two states that differ in memory only, and agree on those two bytes, step alike. -/
def Obligations.StepReadsTwoBytesAndWritesNone : Prop :=
  ∀ (s t : State) (m : Memory),
    ({ s with mem := m } : State).memRead s.pc.toNat = s.memRead s.pc.toNat →
    ({ s with mem := m } : State).memRead (s.pc.toNat + 1) = s.memRead (s.pc.toNat + 1) →
    step s = .next t →
    t.mem = s.mem ∧ step { s with mem := m } = .next { t with mem := m }

/-- No step reads or writes the index register (10_state.md R14): its value only travels along. -/
def Obligations.StepNeitherReadsNorWritesIndex : Prop :=
  ∀ (s t : State) (k : Word), step s = .next t →
    t.i = s.i ∧ step { s with i := k } = .next { t with i := k }

/-- `execute` reads and writes no memory and no index register (40_execute_cycle.md R71; 10_state.md R14). -/
def Obligations.ExecuteIgnoresMemoryAndIndex : Prop :=
  ∀ (s t : State) (w k : Word) (m : Memory), execute w s = .next t →
    t.mem = s.mem ∧ t.i = s.i ∧ execute w { s with mem := m, i := k } = .next { t with mem := m, i := k }

/-! ### Errors and the halted state -/

/-- A word that is no instruction halts the machine (60_exceptions.md R131), injected or fetched: the latch holds
cause 1, the address of the word and the word; PC is past the word; nothing else changes. PC past the word is
the spec's own decision D3 (log 9), the latch its decision D8 (log 1). -/
def Obligations.UnimplementedOpcodeHalts : Prop :=
  ∀ (s : State) (w : Word) (r : Reject), s.halted = false → decode w = .error r →
    let t : State := { s with pc := s.pc + 2, halted := true, faultCause := .unimplementedOpcode, faultPc := s.pc, faultWord := w }
    execute w s = .next t ∧ (s.fetch = some w → step s = .next t)

/-- A step with PC above 0x0FFE halts the machine (60_exceptions.md R132): the latch holds cause 2, PC and a zero
word, nothing else changes, PC included; with PC at most 0x0FFE the fetch finds a word. The moment of the check
is the spec's own decision D4 (log 8), the latch its decisions D8 and D20 (log 1). -/
def Obligations.OutOfBoundsFetchHalts : Prop :=
  ∀ s : State, s.halted = false →
    (0x0FFE < s.pc.toNat → step s =
      .next { s with halted := true, faultCause := .outOfBoundsAddress, faultPc := s.pc, faultWord := 0 }) ∧
    (s.pc.toNat ≤ 0x0FFE → ∃ w, s.fetch = some w ∧ step s = execute w s)

/-- Two bytes nobody has written since reset are an illegal word, so running into them halts the machine
(20_memory.md R43). -/
def Obligations.UnwrittenMemoryHalts : Prop :=
  ∀ s : State, s.halted = false → s.memRead s.pc.toNat = some 0 → s.memRead (s.pc.toNat + 1) = some 0 →
    step s = .next { s with pc := s.pc + 2, halted := true, faultCause := .unimplementedOpcode, faultPc := s.pc, faultWord := 0 }

/-- A load of more than 3584 bytes halts the machine and writes nothing (60_exceptions.md R133; the spec's own
decision D10, log 10). -/
def Obligations.OverlongLoadHalts : Prop :=
  ∀ (s : State) (p : List Byte), s.halted = false → 3584 < p.length →
    operate (.load p) s =
      .next { s with halted := true, faultCause := .programTooLarge, faultPc := s.pc, faultWord := 0 }

/-- While halted every operation but reset changes nothing (60_exceptions.md R135; the spec's own decision D9, log
2). So the first error is the one recorded. -/
def Obligations.HaltedMachineIsFrozen : Prop :=
  ∀ (s : State) (o : HostOp), s.halted = true → o ≠ .reset → operate o s = .next s

/-- Reset, in any state and halted or not, leaves every register and every cell zero, PC 0x0200 and the latch clear
(70_reset_and_hazards.md R160; 10_state.md R22). The zero of I is the spec's own decision D7 (log 3), reset
clearing memory in any state its decision D14 (log 22), the latch its decision D8 (log 1). -/
def Obligations.ResetClearsEverything : Prop :=
  ∀ s : State, ∃ t, operate .reset s = .next t ∧
    (∀ r, t.readV r = 0) ∧ (∀ a, a < 4096 → t.memRead a = some 0) ∧ t.pc = 0x0200 ∧ t.i = 0 ∧
    t.halted = false ∧ t.faultCause = .none ∧ t.faultPc = 0 ∧ t.faultWord = 0

/-- Each error is raised for its own reason and by its own operation only (60_exceptions.md R130 to R134, R137):
what an operation on a running engine with a clear latch leaves there tells what happened, and it leaves nothing
else changed. A run without error leaves the latch clear. The latch is the spec's own decision D8 (log 1). -/
def Obligations.LatchTellsTheCause : Prop :=
  ∀ (o : HostOp) (s t : State), s.halted = false → s.faultCause = .none → operate o s = .next t →
    match t.faultCause with
    | .none => t.halted = false ∧ (o ≠ .reset → t.faultPc = s.faultPc ∧ t.faultWord = s.faultWord)
    | .unimplementedOpcode => ∃ w r, (o = .execute w ∨ (o = .step ∧ s.fetch = some w)) ∧ decode w = .error r ∧
        t = { s with pc := s.pc + 2, halted := true, faultCause := .unimplementedOpcode, faultPc := s.pc, faultWord := w }
    | .outOfBoundsAddress => o = .step ∧ 0x0FFE < s.pc.toNat ∧
        t = { s with halted := true, faultCause := .outOfBoundsAddress, faultPc := s.pc, faultWord := 0 }
    | .programTooLarge => (∃ p, o = .load p ∧ 3584 < p.length) ∧
        t = { s with halted := true, faultCause := .programTooLarge, faultPc := s.pc, faultWord := 0 }

/-! ### The host interface and memory -/

/-- A load of at most 3584 bytes places byte k at 0x200 + k and changes nothing else: no other byte of memory, no
register, not PC (70_reset_and_hazards.md R162; that PC and the rest stay is the spec's decision D22, log 11). -/
def Obligations.LoadPlacesThePayload : Prop :=
  ∀ (s : State) (p : List Byte), s.halted = false → s.mem.wf = true → p.length ≤ 3584 →
    ∃ t, operate (.load p) s = .next t ∧ t = { s with mem := t.mem } ∧
      (∀ k (h : k < p.length), t.memRead (0x200 + k) = some p[k]) ∧
      ∀ a, ¬(0x200 ≤ a ∧ a < 0x200 + p.length) → t.memRead a = s.memRead a

/-- A host write on a running engine changes the named component to the given value and nothing else
(70_reset_and_hazards.md R165; the spec's own decision D11, log 21): V[i], I, PC, or the one byte of memory. -/
def Obligations.HostWritesOneComponent : Prop :=
  ∀ s : State, s.halted = false →
    (∀ r b, operate (.writeV r b) s = .next { s with v := s.v.set r b }) ∧
    (∀ w, operate (.writeI w) s = .next { s with i := w }) ∧
    (∀ w, operate (.writePC w) s = .next { s with pc := w }) ∧
    (s.mem.wf = true → ∀ (a : Addr) b, ∃ t, operate (.writeMem a b) s = .next t ∧ t = { s with mem := t.mem } ∧
      ∀ k, t.memRead k = if k = a.toNat then some b else s.memRead k)

/-- The launch state of a program p of at most 3584 bytes, `reset()` and then `load(p)` (70_reset_and_hazards.md
R167): registers zero, PC 0x0200, running, memory p at 0x200 onward and zero elsewhere. The zero of I is the
spec's decision D7 (log 3). -/
def Obligations.ResetThenLoadIsTheLaunchState : Prop :=
  ∀ (s : State) (p : List Byte), p.length ≤ 3584 → ∃ t u,
    operate .reset s = .next t ∧ operate (.load p) t = .next u ∧
    (∀ r, u.readV r = 0) ∧ u.i = 0 ∧ u.pc = 0x0200 ∧ u.halted = false ∧
    ∀ a, a < 4096 → u.memRead a = some (if 0x200 ≤ a then p.getD (a - 0x200) 0 else 0)

/-- A host write of a program word's two bytes is seen by the very next fetch, with nothing in between
(20_memory.md R42; the spec's own decision D19, log 20): the next step does what executing the word does. -/
def Obligations.NextFetchSeesTheHostWrite : Prop :=
  ∀ (s : State) (w : Word) (a b : Addr),
    s.halted = false → s.mem.wf = true → s.pc.toNat = a.toNat → b.toNat = a.toNat + 1 →
    ∃ t u, operate (.writeMem a (BitVec.ofNat 8 (w.toNat / 256))) s = .next t ∧
      operate (.writeMem b (BitVec.ofNat 8 (w.toNat % 256))) t = .next u ∧
      operate .step u = execute w u

/-! ### Invariants and the whole machine -/

/-- The reset state has the model's invariant: its memory is in the canonical form, which is the model's own
representation of the all-zero array (log 13), and its latch is clear, as a truthful latch of a running engine is.
Keeping the latch in the state is the model's choice (log 1), its fields are the spec's own decision D8. -/
def Obligations.ResetHasTheInvariant : Prop := State.reset.Inv

/-- Every step keeps the invariant: memory in its canonical form inside the 4096 bytes, and a truthful latch
(10_state.md R18, R20, R24; 60_exceptions.md R131, R132, R134, R135). The canonical form is the model's choice
(log 13), the latch the spec's decision D8 (log 1). -/
def Obligations.StepKeepsTheInvariant : Prop :=
  ∀ s t : State, s.Inv → step s = .next t → t.Inv

/-- Every host operation keeps the invariant: reset, load of any payload, step, execute of any word, every write
(10_state.md R24; 70_reset_and_hazards.md R160 to R168; log 1, log 13). -/
def Obligations.HostOperationsKeepTheInvariant : Prop :=
  ∀ (o : HostOp) (s t : State), s.Inv → operate o s = .next t → t.Inv

/-- In every state a host can reach from reset by any operations, the machine is halted exactly when there is a
fault cause, and a running machine's fault_pc and fault_word are zero (10_state.md R18, R24; the latch is the
spec's decision D8, log 1). -/
def Obligations.ReachableLatchIsConsistent : Prop :=
  ∀ s : State, Reachable s →
    (s.halted = true ↔ s.faultCause ≠ .none) ∧ (s.halted = false → s.faultPc = 0 ∧ s.faultWord = 0)

/-- The fixed points of `step` of a running engine are exactly the self-jumps (41_control_transfer.md R96,
70_reset_and_hazards.md R169): a step leaves the state as it is if and only if the word at PC is the jump to PC. -/
def Obligations.SelfJumpIsTheOnlyFixedPoint : Prop :=
  ∀ s : State, s.halted = false →
    (step s = .next s ↔ s.fetch = some (0x1#4 ++ s.pc.setWidth 12))
end

