-- ==== Sys2Proof/Laws/Decode.lean ====
section
/-! SUPPORT. The small laws of the encoding: what the decoder's fields are on each word layout, that a word is
the fields it is made of, and that a word is its two bytes. -/

namespace Sys2Proof

@[simp] theorem regOfField_fieldOfReg (r : RegIndex) : regOfField (fieldOfReg r) = r := by
  apply Fin.ext
  simp only [regOfField, fieldOfReg, BitVec.toNat_ofNat]
  omega

@[simp] theorem fieldOfReg_regOfField (f : Nibble) : fieldOfReg (regOfField f) = f := by
  simp [regOfField, fieldOfReg]

/-- The fields of a word as arithmetic on its value (30_encoding.md R50). -/
theorem fieldsOf_toNat (w : Word) :
    (fieldsOf w).cls.toNat = w.toNat / 4096 ∧ (fieldsOf w).x.toNat = w.toNat / 256 % 16 ∧
    (fieldsOf w).y.toNat = w.toNat / 16 % 16 ∧ (fieldsOf w).n.toNat = w.toNat % 16 ∧
    (fieldsOf w).nn.toNat = w.toNat % 256 ∧ (fieldsOf w).nnn.toNat = w.toNat % 4096 := by
  have := w.isLt
  simp only [fieldsOf, BitVec.extractLsb'_toNat, Nat.shiftRight_eq_div_pow]
  refine ⟨?_, ?_, ?_, ?_, ?_, ?_⟩
  all_goals norm_num <;> omega

/-- The value of two bit vectors side by side. -/
theorem toNat_append_eq {m n : Nat} (a : BitVec m) (b : BitVec n) : (a ++ b).toNat = a.toNat * 2 ^ n + b.toNat := by
  rw [BitVec.toNat_append, Nat.shiftLeft_eq, Nat.mul_comm, Nat.two_pow_add_eq_or_of_lt b.isLt]

theorem toNat_wordNNN (c : Nibble) (nnn : Addr) : (wordNNN c nnn).toNat = c.toNat * 4096 + nnn.toNat := by
  rw [wordNNN, toNat_append_eq, show 2 ^ 12 = 4096 from rfl]

theorem toNat_fieldOfReg (r : RegIndex) : (fieldOfReg r).toNat = r.val := by
  simp only [fieldOfReg, BitVec.toNat_ofNat]
  omega

theorem toNat_wordXNN (c : Nibble) (x : RegIndex) (nn : Byte) :
    (wordXNN c x nn).toNat = c.toNat * 4096 + x.val * 256 + nn.toNat := by
  rw [wordXNN, toNat_append_eq, toNat_append_eq, toNat_fieldOfReg]
  omega

theorem toNat_wordXYN (c : Nibble) (x y : RegIndex) (n : Nibble) :
    (wordXYN c x y n).toNat = c.toNat * 4096 + x.val * 256 + y.val * 16 + n.toNat := by
  rw [wordXYN, toNat_append_eq, toNat_append_eq, toNat_append_eq, toNat_fieldOfReg, toNat_fieldOfReg]
  omega

/-- Two words with the same value in every field, or just the same class and NNN, are the same. -/
theorem word_ext_fields {w u : Word} (hc : (fieldsOf w).cls = (fieldsOf u).cls)
    (hn : (fieldsOf w).nnn = (fieldsOf u).nnn) : w = u := by
  obtain ⟨hcw, -, -, -, -, hnw⟩ := fieldsOf_toNat w
  obtain ⟨hcu, -, -, -, -, hnu⟩ := fieldsOf_toNat u
  rw [← hc] at hcu
  rw [← hn] at hnu
  apply BitVec.eq_of_toNat_eq
  omega

/-- The fields of a word laid out as class, NNN. -/
theorem fieldsOf_wordNNN (c : Nibble) (nnn : Addr) :
    (fieldsOf (wordNNN c nnn)).cls = c ∧ (fieldsOf (wordNNN c nnn)).nnn = nnn := by
  obtain ⟨hc, -, -, -, -, hn⟩ := fieldsOf_toNat (wordNNN c nnn)
  have := nnn.isLt
  rw [toNat_wordNNN] at hc hn
  exact ⟨BitVec.eq_of_toNat_eq (by omega), BitVec.eq_of_toNat_eq (by omega)⟩

/-- The fields of a word laid out as class, X, NN. -/
theorem fieldsOf_wordXNN (c : Nibble) (x : RegIndex) (nn : Byte) :
    (fieldsOf (wordXNN c x nn)).cls = c ∧ (fieldsOf (wordXNN c x nn)).x = fieldOfReg x ∧
    (fieldsOf (wordXNN c x nn)).nn = nn := by
  obtain ⟨hc, hx, -, -, hn, -⟩ := fieldsOf_toNat (wordXNN c x nn)
  have := nn.isLt
  have := x.isLt
  rw [toNat_wordXNN] at hc hx hn
  exact ⟨BitVec.eq_of_toNat_eq (by omega), BitVec.eq_of_toNat_eq (by rw [toNat_fieldOfReg]; omega),
    BitVec.eq_of_toNat_eq (by omega)⟩

/-- The fields of a word laid out as class, X, Y, N. -/
theorem fieldsOf_wordXYN (c : Nibble) (x y : RegIndex) (n : Nibble) :
    (fieldsOf (wordXYN c x y n)).cls = c ∧ (fieldsOf (wordXYN c x y n)).x = fieldOfReg x ∧
    (fieldsOf (wordXYN c x y n)).y = fieldOfReg y ∧ (fieldsOf (wordXYN c x y n)).n = n := by
  obtain ⟨hc, hx, hy, hn, -, -⟩ := fieldsOf_toNat (wordXYN c x y n)
  have := n.isLt
  have := x.isLt
  have := y.isLt
  rw [toNat_wordXYN] at hc hx hy hn
  exact ⟨BitVec.eq_of_toNat_eq (by omega), BitVec.eq_of_toNat_eq (by rw [toNat_fieldOfReg]; omega),
    BitVec.eq_of_toNat_eq (by rw [toNat_fieldOfReg]; omega), BitVec.eq_of_toNat_eq (by omega)⟩

/-- A word is its high byte times 256 plus its low byte (20_memory.md R32). -/
theorem toNat_wordOfBytes (hi lo : Byte) : (wordOfBytes hi lo).toNat = hi.toNat * 256 + lo.toNat := by
  rw [wordOfBytes, toNat_append_eq, show 2 ^ 8 = 256 from rfl]

/-- A word read back from its two bytes is the word. -/
@[simp] theorem wordOfBytes_bytes (w : Word) : wordOfBytes (highByte w) (lowByte w) = w := by
  have := w.isLt
  apply BitVec.eq_of_toNat_eq
  rw [toNat_wordOfBytes]
  simp only [highByte, lowByte, BitVec.extractLsb'_toNat, Nat.shiftRight_eq_div_pow]
  omega

end Sys2Proof
end

