-- ==== Sys2Proof/Laws/Memory.lean ====
section
/-! SUPPORT. The laws of memory: a byte read after a write, and that every memory operation keeps the
canonical form. -/

namespace Sys2Proof.Machine.Memory

open Sys2Proof

/-- A canonical memory from `lo` on lists nothing below `lo`. -/
theorem read_of_lt {m : Memory} {lo a : Nat} (h : wfFrom lo m = true) (ha : a < lo) : read m a = unlisted := by
  induction m generalizing lo with
  | nil => rfl
  | cons c m ih =>
    simp only [wfFrom, Bool.and_eq_true, decide_eq_true_eq] at h
    have hne : c.1 ≠ a := by omega
    simp only [read, hne, if_false]
    exact ih h.2 (by omega)

/-- A canonical form from an address on is one from any earlier address on. -/
theorem wfFrom_mono {m : Memory} {lo lo' : Nat} (hle : lo' ≤ lo) (h : wfFrom lo m = true) : wfFrom lo' m = true := by
  cases m with
  | nil => rfl
  | cons c m =>
    simp only [wfFrom, Bool.and_eq_true, decide_eq_true_eq] at h ⊢
    exact ⟨⟨⟨by omega, h.1.1.2⟩, h.1.2⟩, h.2⟩

/-- A write at or after `lo` keeps the canonical form from `lo` on. -/
theorem wfFrom_write {m : Memory} {lo a : Nat} {b : Byte} (h : wfFrom lo m = true) (hlo : lo ≤ a)
    (ha : a < Config.memSize) : wfFrom lo (write m a b) = true := by
  induction m generalizing lo with
  | nil => by_cases hb : b = unlisted <;> simp [write, wfFrom, hb, hlo, ha]
  | cons c m ih =>
    simp only [wfFrom, Bool.and_eq_true, decide_eq_true_eq] at h
    obtain ⟨⟨⟨hlc, hc⟩, hcb⟩, hm⟩ := h
    simp only [write]
    by_cases hb : b = unlisted
    · split
      · simp [wfFrom, *]
      · split
        · exact wfFrom_mono (by omega) hm
        · simp [wfFrom, hlc, hc, hcb, ih hm (by omega)]
    · split
      · simp [wfFrom, *]
      · split
        · next heq => subst heq; simp [wfFrom, *]
        · simp [wfFrom, hlc, hc, hcb, ih hm (by omega)]

/-- Every byte write inside memory keeps the canonical form. -/
theorem wf_write {m : Memory} {a : Nat} {b : Byte} (h : wf m = true) (ha : a < Config.memSize) :
    wf (write m a b) = true :=
  wfFrom_write h (Nat.zero_le a) ha

/-- Consecutive byte writes that stay inside memory keep the canonical form. -/
theorem wf_writeBytes {bs : List Byte} {m : Memory} {a : Nat} (h : wf m = true)
    (ha : a + bs.length ≤ Config.memSize) : wf (writeBytes m a bs) = true := by
  induction bs generalizing m a with
  | nil => exact h
  | cons b bs ih =>
    simp only [List.length_cons] at ha
    exact ih (wf_write h (by omega)) (by omega)

/-- The reset memory is canonical. -/
theorem wf_nil : wf [] = true := rfl

/-- What a canonical memory holds after a write. -/
theorem read_write_from {m : Memory} {lo a : Nat} (b : Byte) (h : wfFrom lo m = true) (k : Nat) :
    read (write m a b) k = if a = k then b else read m k := by
  induction m generalizing lo with
  | nil =>
    by_cases hb : b = unlisted <;> by_cases hk : a = k <;> simp [write, read, hb, hk]
  | cons c m ih =>
    simp only [wfFrom, Bool.and_eq_true, decide_eq_true_eq] at h
    obtain ⟨-, hm⟩ := h
    have below := fun {j} (hj : j < c.1 + 1) => read_of_lt hm hj
    simp only [write]
    split
    · next hlt =>
      split
      · next hb =>
        split
        · next hk =>
          subst hk
          rw [hb]
          simp only [read, show c.1 ≠ a by omega, if_false]
          exact below (by omega)
        · rfl
      · rfl
    · split
      · next heq =>
        subst heq
        split
        · next hb =>
          split
          · next hk => subst hk; rw [hb]; exact below (by omega)
          · next hk => simp [read, hk]
        · next hb => by_cases hk : c.1 = k <;> simp [read, hk]
      · next h1 h2 =>
        by_cases hck : c.1 = k
        · simp [read, hck, show a ≠ k by omega]
        · simp [read, hck, ih hm]

/-- What a canonical memory holds after a write: the byte at its address, elsewhere what it held. -/
theorem read_write {m : Memory} (a : Nat) (b : Byte) (h : wf m = true) (k : Nat) :
    read (write m a b) k = if a = k then b else read m k :=
  read_write_from b h k

/-- A write needs no canonical form to leave the other addresses alone when the byte is read elsewhere. -/
theorem read_write_of_ne {m : Memory} {a k : Nat} (b : Byte) (hk : a ≠ k) : read (write m a b) k = read m k := by
  induction m with
  | nil => by_cases hb : b = unlisted <;> simp [write, read, hb, hk]
  | cons c m ih =>
    simp only [write]
    split
    · split <;> simp [read, hk]
    · split
      · next heq => subst heq; split <;> simp [read, hk]
      · simp [read, ih]

/-- Two canonical memories that read alike are the same list. -/
theorem ext_of_read_from {m n : Memory} {lo : Nat} (hm : wfFrom lo m = true) (hn : wfFrom lo n = true)
    (h : ∀ a, read m a = read n a) : m = n := by
  induction m generalizing n lo with
  | nil =>
    cases n with
    | nil => rfl
    | cons d n =>
      simp only [wfFrom, Bool.and_eq_true, decide_eq_true_eq, bne_iff_ne, ne_eq] at hn
      exact absurd (by simpa [read] using (h d.1).symm) hn.1.2
  | cons c m ih =>
    simp only [wfFrom, Bool.and_eq_true, decide_eq_true_eq, bne_iff_ne, ne_eq] at hm
    cases n with
    | nil => exact absurd (by simpa [read] using h c.1) hm.1.2
    | cons d n =>
      simp only [wfFrom, Bool.and_eq_true, decide_eq_true_eq, bne_iff_ne, ne_eq] at hn
      have hcd : c.1 = d.1 := by
        rcases Nat.lt_trichotomy c.1 d.1 with hlt | heq | hgt
        · have := h c.1
          simp only [read, if_true, show d.1 ≠ c.1 by omega, if_false,
            read_of_lt hn.2 (show c.1 < d.1 + 1 by omega)] at this
          exact absurd this hm.1.2
        · exact heq
        · have := h d.1
          simp only [read, if_true, show c.1 ≠ d.1 by omega, if_false,
            read_of_lt hm.2 (show d.1 < c.1 + 1 by omega)] at this
          exact absurd this.symm hn.1.2
      have hb : c.2 = d.2 := by simpa [read, hcd] using h c.1
      have hmn : m = n := by
        refine ih hm.2 (hcd ▸ hn.2) fun a => ?_
        by_cases ha : a < c.1 + 1
        · rw [read_of_lt hm.2 ha, read_of_lt hn.2 (hcd ▸ ha)]
        · have := h a
          simpa [read, show c.1 ≠ a by omega, show d.1 ≠ a by omega] using this
      rw [hmn, Prod.ext hcd hb]

end Sys2Proof.Machine.Memory
end

