-- ==== Sys2Proof/Laws/State.lean ====
section
/-! SUPPORT. One lemma per field per update of State, each saying what the update leaves in the field, so that
no later proof unfolds a record update. -/

namespace Sys2Proof.Machine

variable (s : State)

/-! ### `State.writeV` -/

@[simp] theorem State.writeV_v (r : RegIndex) (b : Byte) : (s.writeV r b).v = s.v.set r b := rfl
@[simp] theorem State.writeV_i (r : RegIndex) (b : Byte) : (s.writeV r b).i = s.i := rfl
@[simp] theorem State.writeV_pc (r : RegIndex) (b : Byte) : (s.writeV r b).pc = s.pc := rfl
@[simp] theorem State.writeV_mem (r : RegIndex) (b : Byte) : (s.writeV r b).mem = s.mem := rfl
@[simp] theorem State.writeV_halted (r : RegIndex) (b : Byte) : (s.writeV r b).halted = s.halted := rfl
@[simp] theorem State.writeV_faultCause (r : RegIndex) (b : Byte) : (s.writeV r b).faultCause = s.faultCause := rfl
@[simp] theorem State.writeV_faultPc (r : RegIndex) (b : Byte) : (s.writeV r b).faultPc = s.faultPc := rfl
@[simp] theorem State.writeV_faultWord (r : RegIndex) (b : Byte) : (s.writeV r b).faultWord = s.faultWord := rfl

/-! ### `State.writeI` -/

@[simp] theorem State.writeI_v (w : Word) : (s.writeI w).v = s.v := rfl
@[simp] theorem State.writeI_i (w : Word) : (s.writeI w).i = w := rfl
@[simp] theorem State.writeI_pc (w : Word) : (s.writeI w).pc = s.pc := rfl
@[simp] theorem State.writeI_mem (w : Word) : (s.writeI w).mem = s.mem := rfl
@[simp] theorem State.writeI_halted (w : Word) : (s.writeI w).halted = s.halted := rfl
@[simp] theorem State.writeI_faultCause (w : Word) : (s.writeI w).faultCause = s.faultCause := rfl
@[simp] theorem State.writeI_faultPc (w : Word) : (s.writeI w).faultPc = s.faultPc := rfl
@[simp] theorem State.writeI_faultWord (w : Word) : (s.writeI w).faultWord = s.faultWord := rfl

/-! ### `State.writePC` -/

@[simp] theorem State.writePC_v (w : Word) : (s.writePC w).v = s.v := rfl
@[simp] theorem State.writePC_i (w : Word) : (s.writePC w).i = s.i := rfl
@[simp] theorem State.writePC_pc (w : Word) : (s.writePC w).pc = w := rfl
@[simp] theorem State.writePC_mem (w : Word) : (s.writePC w).mem = s.mem := rfl
@[simp] theorem State.writePC_halted (w : Word) : (s.writePC w).halted = s.halted := rfl
@[simp] theorem State.writePC_faultCause (w : Word) : (s.writePC w).faultCause = s.faultCause := rfl
@[simp] theorem State.writePC_faultPc (w : Word) : (s.writePC w).faultPc = s.faultPc := rfl
@[simp] theorem State.writePC_faultWord (w : Word) : (s.writePC w).faultWord = s.faultWord := rfl

/-! ### `State.memWrite` -/

@[simp] theorem State.memWrite_v (a : Addr) (b : Byte) : (s.memWrite a b).v = s.v := rfl
@[simp] theorem State.memWrite_i (a : Addr) (b : Byte) : (s.memWrite a b).i = s.i := rfl
@[simp] theorem State.memWrite_pc (a : Addr) (b : Byte) : (s.memWrite a b).pc = s.pc := rfl
@[simp] theorem State.memWrite_mem (a : Addr) (b : Byte) : (s.memWrite a b).mem = s.mem.write a.toNat b := rfl
@[simp] theorem State.memWrite_halted (a : Addr) (b : Byte) : (s.memWrite a b).halted = s.halted := rfl
@[simp] theorem State.memWrite_faultCause (a : Addr) (b : Byte) : (s.memWrite a b).faultCause = s.faultCause := rfl
@[simp] theorem State.memWrite_faultPc (a : Addr) (b : Byte) : (s.memWrite a b).faultPc = s.faultPc := rfl
@[simp] theorem State.memWrite_faultWord (a : Addr) (b : Byte) : (s.memWrite a b).faultWord = s.faultWord := rfl

/-! ### `State.advance` -/

@[simp] theorem State.advance_v : (s.advance).v = s.v := rfl
@[simp] theorem State.advance_i : (s.advance).i = s.i := rfl
@[simp] theorem State.advance_pc : (s.advance).pc = s.pc + 2 := rfl
@[simp] theorem State.advance_mem : (s.advance).mem = s.mem := rfl
@[simp] theorem State.advance_halted : (s.advance).halted = s.halted := rfl
@[simp] theorem State.advance_faultCause : (s.advance).faultCause = s.faultCause := rfl
@[simp] theorem State.advance_faultPc : (s.advance).faultPc = s.faultPc := rfl
@[simp] theorem State.advance_faultWord : (s.advance).faultWord = s.faultWord := rfl

/-! ### `State.raise` -/

@[simp] theorem State.raise_v (c : FaultCause) (p w : Word) : (s.raise c p w).v = s.v := rfl
@[simp] theorem State.raise_i (c : FaultCause) (p w : Word) : (s.raise c p w).i = s.i := rfl
@[simp] theorem State.raise_pc (c : FaultCause) (p w : Word) : (s.raise c p w).pc = s.pc := rfl
@[simp] theorem State.raise_mem (c : FaultCause) (p w : Word) : (s.raise c p w).mem = s.mem := rfl
@[simp] theorem State.raise_halted (c : FaultCause) (p w : Word) : (s.raise c p w).halted = true := rfl
@[simp] theorem State.raise_faultCause (c : FaultCause) (p w : Word) : (s.raise c p w).faultCause = c := rfl
@[simp] theorem State.raise_faultPc (c : FaultCause) (p w : Word) : (s.raise c p w).faultPc = p := rfl
@[simp] theorem State.raise_faultWord (c : FaultCause) (p w : Word) : (s.raise c p w).faultWord = w := rfl

/-! ### `State.skipIf` -/

@[simp] theorem State.skipIf_v (c : Bool) : (s.skipIf c).v = s.v := by cases c <;> rfl
@[simp] theorem State.skipIf_i (c : Bool) : (s.skipIf c).i = s.i := by cases c <;> rfl
@[simp] theorem State.skipIf_pc (c : Bool) : (s.skipIf c).pc = if c then s.pc + 2 else s.pc := by cases c <;> rfl
@[simp] theorem State.skipIf_mem (c : Bool) : (s.skipIf c).mem = s.mem := by cases c <;> rfl
@[simp] theorem State.skipIf_halted (c : Bool) : (s.skipIf c).halted = s.halted := by cases c <;> rfl
@[simp] theorem State.skipIf_faultCause (c : Bool) : (s.skipIf c).faultCause = s.faultCause := by cases c <;> rfl
@[simp] theorem State.skipIf_faultPc (c : Bool) : (s.skipIf c).faultPc = s.faultPc := by cases c <;> rfl
@[simp] theorem State.skipIf_faultWord (c : Bool) : (s.skipIf c).faultWord = s.faultWord := by cases c <;> rfl

/-! ### Registers read after a write -/

/-- A register written reads back what was written (10_state.md R11). -/
@[simp] theorem State.readV_writeV_self (r : RegIndex) (b : Byte) : (s.writeV r b).readV r = b := by
  simp [State.readV, State.writeV]

/-- A write of one register leaves every other register alone (10_state.md R11). -/
theorem State.readV_writeV_of_ne {r q : RegIndex} (b : Byte) (h : r ≠ q) : (s.writeV r b).readV q = s.readV q := by
  simp [State.readV, State.writeV, Fin.val_inj, h]

/-- What a register holds after a write of any register. -/
theorem State.readV_writeV (r q : RegIndex) (b : Byte) :
    (s.writeV r b).readV q = if r = q then b else s.readV q := by
  split
  · next h => subst h; simp
  · next h => exact s.readV_writeV_of_ne b h

@[simp] theorem State.readV_writePC (w : Word) (q : RegIndex) : (s.writePC w).readV q = s.readV q := rfl
@[simp] theorem State.readV_advance (q : RegIndex) : s.advance.readV q = s.readV q := rfl
@[simp] theorem State.regOperand_eq (q : RegIndex) : s.regOperand q = s.readV q := rfl
@[simp] theorem State.readV_skipIf (c : Bool) (q : RegIndex) : (s.skipIf c).readV q = s.readV q := by
  cases c <;> rfl

/-- Two states with the same registers, read one by one, have the same register file. -/
theorem v_ext_readV {s t : State} (h : ∀ r : RegIndex, s.readV r = t.readV r) : s.v = t.v :=
  Vector.ext fun k hk => h ⟨k, hk⟩

end Sys2Proof.Machine
end

