-- ==== Sys2Proof/Laws/Step.lean ====
section
/-! SUPPORT. What the fetch, a handler, a cycle and a step can do, said once each. -/

namespace Sys2Proof.Machine

variable {s t : State} {w : Word}

/-! ### Fetch -/

/-- A fetch in range reads the two bytes at PC and PC + 1 (40_execute_cycle.md R72). -/
theorem State.fetch_of_le (h : s.pc.toNat ≤ 0x0FFE) :
    s.fetch = some (wordOfBytes (s.mem.read s.pc.toNat) (s.mem.read (s.pc.toNat + 1))) := by
  simp [State.fetch, State.memRead, Config.memSize, show s.pc.toNat < 4096 by omega,
    show s.pc.toNat + 1 < 4096 by omega]

/-- A fetch with PC above 0x0FFE has no word (20_memory.md R36). -/
theorem State.fetch_of_gt (h : 0x0FFE < s.pc.toNat) : s.fetch = none := by
  have h1 : ¬s.pc.toNat + 1 < 4096 := by omega
  simp only [State.fetch, State.memRead, Config.memSize, h1, if_false]
  split <;> simp_all

/-- A fetch has a word only with PC at most 0x0FFE. -/
theorem State.pc_le_of_fetch (h : s.fetch = some w) : s.pc.toNat ≤ 0x0FFE := by
  by_contra hgt
  rw [State.fetch_of_gt (by omega)] at h
  cases h

/-! ### Handlers -/

/-- Every handler answers a next state that differs from its own in the registers and PC at most. -/
theorem exec_next (i : Instr) (s : State) : ∃ v pc, exec i s = .next { s with v := v, pc := pc } := by
  cases i <;> first
    | exact ⟨_, _, rfl⟩
    | (simp only [exec, execSeImm, execSneImm, execSeReg, State.skipIf]; split <;> exact ⟨_, _, rfl⟩)

/-! ### Cycles and steps -/

/-- A cycle on a word that decodes is the instruction's handler after the advance (40_execute_cycle.md R74). -/
theorem cycle_of_ok {i : Instr} (h : decode w = .ok i) : cycle w s = exec i s.advance := by simp [cycle, h]

/-- A cycle on any other word latches `UnimplementedOpcode` (60_exceptions.md R131). -/
theorem cycle_of_error {r : Reject} (h : decode w = .error r) :
    cycle w s = .next (s.advance.raiseUnimplementedOpcode s.pc w) := by simp [cycle, h]

/-- What a cycle can do: run a handler, which changes registers and PC at most, or latch an error. -/
theorem cycle_cases (w : Word) (s : State) :
    (∃ i v pc, decode w = .ok i ∧ exec i s.advance = .next { s with v := v, pc := pc } ∧
      cycle w s = .next { s with v := v, pc := pc }) ∨
    (∃ r, decode w = .error r ∧ cycle w s = .next (s.advance.raiseUnimplementedOpcode s.pc w)) := by
  cases h : decode w with
  | ok i =>
    obtain ⟨v, pc, he⟩ := exec_next i s.advance
    exact .inl ⟨i, v, pc, rfl, he, by rw [cycle_of_ok h, he]; rfl⟩
  | error r => exact .inr ⟨r, rfl, cycle_of_error h⟩

/-- `execute` on a running engine is the cycle (40_execute_cycle.md R71). -/
theorem execute_of_running (h : s.halted = false) : execute w s = cycle w s := by simp [execute, h]

/-- `execute` on a halted engine does nothing (60_exceptions.md R135). -/
theorem execute_of_halted (h : s.halted = true) : execute w s = .next s := by simp [execute, h]

/-- A step with a word to fetch runs the cycle on it. -/
theorem step_of_fetch (hh : s.halted = false) (h : s.fetch = some w) : step s = cycle w s := by
  simp [step, fetchCycle, hh, h]

/-- A step with PC above 0x0FFE latches `OutOfBoundsAddress` (60_exceptions.md R132). -/
theorem step_of_gt (hh : s.halted = false) (h : 0x0FFE < s.pc.toNat) : step s = .next s.raiseOutOfBoundsAddress := by
  simp [step, fetchCycle, hh, State.fetch_of_gt h]

/-- A step of a halted engine does nothing (60_exceptions.md R135). -/
theorem step_of_halted (hh : s.halted = true) : step s = .next s := by simp [step, fetchCycle, hh]

/-- What a step does, by the three cases of 40_execute_cycle.md R70. -/
theorem step_cases (s : State) :
    (s.halted = true ∧ step s = .next s) ∨
    (s.halted = false ∧ 0x0FFE < s.pc.toNat ∧ step s = .next s.raiseOutOfBoundsAddress) ∨
    (∃ w, s.halted = false ∧ s.fetch = some w ∧ step s = cycle w s) := by
  cases hh : s.halted with
  | true => exact .inl ⟨rfl, step_of_halted hh⟩
  | false =>
    by_cases hp : s.pc.toNat ≤ 0x0FFE
    · exact .inr (.inr ⟨_, rfl, State.fetch_of_le hp, step_of_fetch hh (State.fetch_of_le hp)⟩)
    · exact .inr (.inl ⟨rfl, by omega, step_of_gt hh (by omega)⟩)

end Sys2Proof.Machine
end

