-- ==== Sys2Proof/Laws/HostPort.lean ====
section
/-! SUPPORT. What each host operation does, said once. -/

namespace Sys2Proof.Machine

variable {s : State}

/-- A load is ignored while halted (60_exceptions.md R135). -/
theorem hostLoad_of_halted (p : List Byte) (h : s.halted = true) : hostLoad p s = s := by simp [hostLoad, h]

/-- A load that does not fit latches `ProgramTooLarge` and writes nothing (60_exceptions.md R133). -/
theorem hostLoad_of_gt {p : List Byte} (h : s.halted = false) (hp : Config.loadCapacity < p.length) :
    hostLoad p s = s.raiseProgramTooLarge := by simp [hostLoad, h, hp]

/-- A load that fits writes the payload from the origin on (70_reset_and_hazards.md R162). -/
theorem hostLoad_of_le {p : List Byte} (h : s.halted = false) (hp : p.length ≤ Config.loadCapacity) :
    hostLoad p s = { s with mem := s.mem.writeBytes Config.origin p } := by
  simp [hostLoad, h, Nat.not_lt.mpr hp]

/-- A host write has its effect on a running engine (70_reset_and_hazards.md R165). -/
theorem hostWrite_of_running (f : State → State) (h : s.halted = false) : hostWrite f s = f s := by simp [hostWrite, h]

/-- A host write is ignored while halted (60_exceptions.md R135). -/
theorem hostWrite_of_halted (f : State → State) (h : s.halted = true) : hostWrite f s = s := by simp [hostWrite, h]

/-- Memory after consecutive writes: the written bytes at their addresses, elsewhere what it held. -/
theorem Memory.read_writeBytes {p : List Byte} {m : Memory} {a : Nat} (hm : m.wf = true)
    (ha : a + p.length ≤ Config.memSize) (k : Nat) :
    (m.writeBytes a p).read k = if h : a ≤ k ∧ k < a + p.length then p[k - a] else m.read k := by
  induction p generalizing m a with
  | nil => rw [dif_neg (by simp)]; rfl
  | cons b p ih =>
    simp only [List.length_cons] at ha
    simp only [writeBytes, List.length_cons]
    rw [ih (wf_write hm (by omega)) (by omega), read_write a b hm]
    by_cases hk : a = k
    · subst hk; simp
    · by_cases h2 : a + 1 ≤ k ∧ k < a + 1 + p.length
      · rw [dif_pos h2, dif_pos (by omega)]
        obtain ⟨j, rfl⟩ : ∃ j, k = a + 1 + j := ⟨k - (a + 1), by omega⟩
        have e : a + 1 + j - a = j + 1 := by omega
        simp [e]
      · rw [dif_neg h2, dif_neg (by omega), if_neg hk]

/-! ### One instruction for one invocation, and runs -/

/-- Every operation answers exactly one next state: none waits, none is still under way (70_reset_and_hazards.md
R173). -/
theorem operate_next (o : HostOp) (s : State) : ∃ t, operate o s = .next t := by
  have hc : ∀ w, ∃ t, cycle w s = .next t := fun w => by
    obtain ⟨_, _, _, _, _, h⟩ | ⟨_, _, h⟩ := cycle_cases w s <;> exact ⟨_, h⟩
  cases o with
  | step =>
    obtain ⟨_, h⟩ | ⟨_, _, h⟩ | ⟨w, _, _, h⟩ := step_cases s
    · exact ⟨_, h⟩
    · exact ⟨_, h⟩
    · exact (hc w).imp fun _ hw => h.trans hw
  | execute w =>
    cases hh : s.halted with
    | true => exact ⟨_, execute_of_halted hh⟩
    | false => exact (hc w).imp fun _ hw => (execute_of_running hh).trans hw
  | _ => exact ⟨_, rfl⟩

/-- An instruction is run by `step` or `execute` only, on a running engine (70_reset_and_hazards.md R173): by
`step` where it is what the fetched word decodes to, by `execute` where the word given is. -/
theorem HostOp.instruction_eq_some {o : HostOp} {i : Instr} :
    o.instruction s = some i ↔
      s.halted = false ∧ ∃ w, decode w = .ok i ∧ (o = .execute w ∨ (o = .step ∧ s.fetch = some w)) := by
  have hd : ∀ w, (decode w).toOption = some i ↔ decode w = .ok i := fun w => by
    cases decode w <;> simp [Except.toOption]
  cases hh : s.halted <;> cases o <;> simp [HostOp.instruction, hh, hd, Option.bind_eq_some_iff, and_comm]

/-- One invocation is one instruction (70_reset_and_hazards.md R163, R173): an operation that runs an instruction is
that instruction's handler on the state with PC advanced, run once, and nothing before or after it. -/
theorem operate_of_instruction {o : HostOp} {i : Instr} (h : o.instruction s = some i) :
    operate o s = exec i s.advance := by
  obtain ⟨hh, w, hw, rfl | ⟨rfl, hf⟩⟩ := HostOp.instruction_eq_some.mp h
  · exact (execute_of_running hh).trans (cycle_of_ok hw)
  · exact (step_of_fetch hh hf).trans (cycle_of_ok hw)

@[simp] theorem hostRun_nil (s : State) : hostRun [] s = .next s := rfl

/-- A run goes on from where its first operation leaves the machine. -/
theorem hostRun_cons {o : HostOp} {os : List HostOp} {t : State} (h : operate o s = .next t) :
    hostRun (o :: os) s = hostRun os t := by simp [hostRun, h]

/-- Every run answers a next state: the machine never ends one (70_reset_and_hazards.md R169). -/
theorem hostRun_next (os : List HostOp) (s : State) : ∃ t, hostRun os s = .next t := by
  induction os generalizing s with
  | nil => exact ⟨s, rfl⟩
  | cons o os ih =>
    obtain ⟨t, h⟩ := operate_next o s
    exact hostRun_cons h ▸ ih t

/-- Nothing happens between two runs: a run in two parts is one run, however long the host waits between them
(70_reset_and_hazards.md R173). -/
theorem hostRun_append {os ps : List HostOp} {t : State} (h : hostRun os s = .next t) :
    hostRun (os ++ ps) s = hostRun ps t := by
  induction os generalizing s with
  | nil => cases h; rfl
  | cons o os ih =>
    obtain ⟨u, hu⟩ := operate_next o s
    rw [hostRun_cons hu] at h
    rw [List.cons_append, hostRun_cons hu, ih h]

/-- A state that `step` leaves as it is stays through any number of steps: such a program goes on for as long as the
host invokes `step` (70_reset_and_hazards.md R169, R173). -/
theorem hostRun_steps_of_fixed (h : step s = .next s) (n : Nat) :
    hostRun (List.replicate n .step) s = .next s := by
  induction n with
  | zero => rfl
  | succ n ih => rw [List.replicate_succ, hostRun_cons (show operate .step s = .next s from h), ih]

/-! ### Placing a word for the next step -/

/-- After `placeWord` the fetch finds the word, where PC is in range. -/
theorem State.fetch_placeWord (w : Word) (hm : s.mem.wf = true) (hp : s.pc.toNat ≤ 0x0FFE) :
    (s.placeWord w).fetch = some w := by
  have h0 : s.pc.toNat + (bytesOfWord w).length ≤ Config.memSize := by simp [bytesOfWord, Config.memSize]; omega
  rw [State.fetch_of_le (s := s.placeWord w) hp]
  simp only [State.placeWord, Memory.read_writeBytes hm h0]
  simp [bytesOfWord]

/-- The engine that `readyToFetch` answers runs, and its PC is in range. -/
theorem State.readyToFetch_ready (s : State) : s.readyToFetch.halted = false ∧ s.readyToFetch.pc.toNat ≤ 0x0FFE := by
  have key : ∀ t : State, t.halted = false →
      (if t.fetch.isSome then t else t.writePC (BitVec.ofNat 16 Config.origin)).halted = false ∧
      (if t.fetch.isSome then t else t.writePC (BitVec.ofNat 16 Config.origin)).pc.toNat ≤ 0x0FFE := by
    intro t ht
    split
    · next h =>
      obtain ⟨w, hw⟩ := Option.isSome_iff_exists.mp h
      exact ⟨ht, State.pc_le_of_fetch hw⟩
    · exact ⟨ht, by simp [Config.origin]⟩
  unfold State.readyToFetch
  cases h : s.halted
  · exact key s h
  · exact key _ rfl

/-- Where the engine runs with PC in range, `readyToFetch` changes nothing. -/
theorem State.readyToFetch_eq_self (hh : s.halted = false) (hp : s.pc.toNat ≤ 0x0FFE) : s.readyToFetch = s := by
  simp [State.readyToFetch, hh, State.fetch_of_le hp]

theorem State.readyToFetch_mem (s : State) : s.readyToFetch.mem = s.mem := by
  unfold State.readyToFetch
  cases s.halted <;> simp <;> split <;> rfl

/-- The next step after `withFetchWord` runs the cycle on exactly that word, from any state with a canonical
memory. -/
theorem step_withFetchWord (nbits w : Nat) (hm : s.mem.wf = true) :
    step (s.withFetchWord nbits w) = cycle (tableWord nbits w) (s.withFetchWord nbits w) := by
  obtain ⟨h1, h2⟩ := s.readyToFetch_ready
  exact step_of_fetch (s := s.withFetchWord nbits w) h1
    (State.fetch_placeWord _ (by rw [State.readyToFetch_mem]; exact hm) h2)

end Sys2Proof.Machine
end

