-- ==== Sys2Proof/Laws/PerInstr.lean ====
section
/-! SUPPORT. The statements made per instruction. The family `TableRow` says of an instruction that its
word has the fixed bits of its row of 30_encoding.md R55. -/

namespace Sys2Proof.Laws.TableRow

/-- The word of the instruction masked by its row's mask is its row's match value. -/
def Statement (i : Instr) : Prop := encode i &&& i.mask = i.matchBits

/-- A fixed field is kept by its mask. -/
theorem mask_ones (c : Nibble) : c &&& 0xF = c := BitVec.and_allOnes

/-- A free field is cleared by its mask. -/
theorem mask_zeros {n : Nat} (b : BitVec n) : b &&& 0 = 0 := by simp

/-- Masking with 0xF000 keeps the class of a word laid out as class, NNN. -/
theorem mask_wordNNN (c : Nibble) (nnn : Addr) : (c ++ nnn : Word) &&& 0xF000 = c ++ (0 : Addr) := by
  rw [show (0xF000 : Word) = (0xF : Nibble) ++ (0 : Addr) from rfl, BitVec.and_append, mask_ones, mask_zeros]

/-- Masking with 0xF000 keeps the class of a word laid out as class, X, NN. -/
theorem mask_wordXNN (c x : Nibble) (nn : Byte) :
    (c ++ x ++ nn : Word) &&& 0xF000 = c ++ (0 : Nibble) ++ (0 : Byte) := by
  rw [show (0xF000 : Word) = (0xF : Nibble) ++ (0 : Nibble) ++ (0 : Byte) from rfl, BitVec.and_append,
    BitVec.and_append, mask_ones, mask_zeros, mask_zeros]

/-- Masking with 0xF00F keeps the class and N of a word laid out as class, X, Y, N. -/
theorem mask_wordXYN (c x y n : Nibble) :
    (c ++ x ++ y ++ n : Word) &&& 0xF00F = c ++ (0 : Nibble) ++ (0 : Nibble) ++ n := by
  rw [show (0xF00F : Word) = (0xF : Nibble) ++ (0 : Nibble) ++ (0 : Nibble) ++ (0xF : Nibble) from rfl,
    BitVec.and_append, BitVec.and_append, BitVec.and_append, mask_ones, mask_ones, mask_zeros, mask_zeros]

theorem jp (nnn : Addr) : Statement (.jp nnn) := mask_wordNNN _ _
theorem seImm (x : RegIndex) (nn : Byte) : Statement (.seImm x nn) := mask_wordXNN _ _ _
theorem sneImm (x : RegIndex) (nn : Byte) : Statement (.sneImm x nn) := mask_wordXNN _ _ _
theorem seReg (x y : RegIndex) : Statement (.seReg x y) := mask_wordXYN _ _ _ _
theorem ldImm (x : RegIndex) (nn : Byte) : Statement (.ldImm x nn) := mask_wordXNN _ _ _
theorem addImm (x : RegIndex) (nn : Byte) : Statement (.addImm x nn) := mask_wordXNN _ _ _
theorem ldReg (x y : RegIndex) : Statement (.ldReg x y) := mask_wordXYN _ _ _ _
theorem or (x y : RegIndex) : Statement (.or x y) := mask_wordXYN _ _ _ _
theorem and (x y : RegIndex) : Statement (.and x y) := mask_wordXYN _ _ _ _
theorem xor (x y : RegIndex) : Statement (.xor x y) := mask_wordXYN _ _ _ _
theorem addReg (x y : RegIndex) : Statement (.addReg x y) := mask_wordXYN _ _ _ _
theorem sub (x y : RegIndex) : Statement (.sub x y) := mask_wordXYN _ _ _ _
theorem shr (x y : RegIndex) : Statement (.shr x y) := mask_wordXYN _ _ _ _
theorem subn (x y : RegIndex) : Statement (.subn x y) := mask_wordXYN _ _ _ _
theorem shl (x y : RegIndex) : Statement (.shl x y) := mask_wordXYN _ _ _ _

end Sys2Proof.Laws.TableRow
end

