-- ==== Sys2Proof/Tests/Slice0.lean ====
section
/-! SUPPORT. The model's own tests and the witnesses of its statements. Every expected value is from
spec/95_test_vectors.md (its section is named), or from the rule named, never from the model. -/

namespace Sys2Proof.Tests

open Sys2Proof Sys2Proof.Machine

/-! ### Helpers -/

/-- The fresh state with some registers set by the host. -/
def withRegs (regs : List (RegIndex × Byte)) : State := regs.foldl (fun s p => s.writeV p.1 p.2) State.reset

/-- The fresh state with some bytes loaded at 0x200. -/
def withBytes (bytes : List Byte) : State := hostLoad bytes State.reset

/-- The next state of an outcome. -/
def nextOf : Host.Outcome State Fault Refusal → Option State
  | .next t => some t
  | _ => none

/-- The values of two registers and of PC after a word is injected into the fresh state with some registers set. -/
def inject (w : Word) (regs : List (RegIndex × Byte)) (a b : RegIndex) : Option (Byte × Byte × Word) :=
  (nextOf (execute w (withRegs regs))).map fun t => (t.readV a, t.readV b, t.pc)

/-- halted, fault_cause, fault_pc, fault_word and PC after an outcome. -/
def latchOf (o : Host.Outcome State Fault Refusal) : Option (Bool × BitVec 2 × Word × Word × Word) :=
  (nextOf o).map fun t => (t.halted, t.faultCause.code, t.faultPc, t.faultWord, t.pc)

/-! ### Well-formedness: one ill-formed term for each check (30_encoding.md R50, R54, R56) -/

/-- The fields of 0x8AE4 are well-formed. -/
theorem test_wellFormed_accepts :
    (Fields.wellFormed { cls := 0x8, x := 0xA, y := 0xE, n := 0x4, nn := 0xE4, nnn := 0xAE4 }) = true := by decide

theorem test_wellFormed_refuses_nn :
    (Fields.wellFormed { cls := 0x8, x := 0xA, y := 0xE, n := 0x4, nn := 0xE5, nnn := 0xAE4 }) = false := by decide

theorem test_wellFormed_refuses_nnn :
    (Fields.wellFormed { cls := 0x8, x := 0xA, y := 0xE, n := 0x4, nn := 0xE4, nnn := 0xBE4 }) = false := by decide

theorem test_wellFormed_refuses_class :
    (Fields.wellFormed { cls := 0x9, x := 0xA, y := 0xE, n := 0x4, nn := 0xE4, nnn := 0xAE4 }) = false := by decide

theorem test_wellFormed_refuses_skip_n :
    (Fields.wellFormed { cls := 0x5, x := 0xA, y := 0xE, n := 0x4, nn := 0xE4, nnn := 0xAE4 }) = false := by decide

theorem test_wellFormed_refuses_alu_n :
    (Fields.wellFormed { cls := 0x8, x := 0xA, y := 0xE, n := 0x8, nn := 0xE8, nnn := 0xAE8 }) = false := by decide

/-! ### Decoding: one word per instruction, bit by bit from the patterns of 30_encoding.md R55 -/

theorem test_decode_jp : decode 0b0001_1010_1011_1100 = .ok (.jp 0xABC) := by decide
theorem test_decode_seImm : decode 0b0011_1010_1111_0001 = .ok (.seImm 0xA 0xF1) := by decide
theorem test_decode_sneImm : decode 0b0100_0011_1000_0000 = .ok (.sneImm 0x3 0x80) := by decide
theorem test_decode_seReg : decode 0b0101_1010_1011_0000 = .ok (.seReg 0xA 0xB) := by decide
theorem test_decode_ldImm : decode 0b0110_1111_0011_0001 = .ok (.ldImm 0xF 0x31) := by decide
theorem test_decode_addImm : decode 0b0111_0101_0001_0010 = .ok (.addImm 0x5 0x12) := by decide
theorem test_decode_ldReg : decode 0b1000_0001_0010_0000 = .ok (.ldReg 0x1 0x2) := by decide
theorem test_decode_or : decode 0b1000_0001_0010_0001 = .ok (.or 0x1 0x2) := by decide
theorem test_decode_and : decode 0b1000_0001_0010_0010 = .ok (.and 0x1 0x2) := by decide
theorem test_decode_xor : decode 0b1000_0001_0010_0011 = .ok (.xor 0x1 0x2) := by decide
theorem test_decode_addReg : decode 0b1000_1010_1110_0100 = .ok (.addReg 0xA 0xE) := by decide
theorem test_decode_sub : decode 0b1000_0001_0010_0101 = .ok (.sub 0x1 0x2) := by decide
theorem test_decode_shr : decode 0b1000_1010_1110_0110 = .ok (.shr 0xA 0xE) := by decide
theorem test_decode_subn : decode 0b1000_0001_0010_0111 = .ok (.subn 0x1 0x2) := by decide
theorem test_decode_shl : decode 0b1000_1010_1110_1110 = .ok (.shl 0xA 0xE) := by decide

/-- 95_test_vectors.md 2.1: illegal words of each of the three groups. -/
theorem test_decode_illegal :
    decode 0x0000 = .error (.unmappedClass 0x0) ∧ decode 0x00E0 = .error (.unmappedClass 0x0) ∧
    decode 0x2200 = .error (.unmappedClass 0x2) ∧ decode 0x9AB0 = .error (.unmappedClass 0x9) ∧
    decode 0xA123 = .error (.unmappedClass 0xA) ∧ decode 0xFFFF = .error (.unmappedClass 0xF) ∧
    decode 0x8AE8 = .error (.unmappedAluOp 0x8) ∧ decode 0x8AEF = .error (.unmappedAluOp 0xF) ∧
    decode 0x5AB1 = .error (.nonzeroSkipField 0x1) := by decide

/-- 20_memory.md R32: the high byte first; fewer than two bytes are no word. -/
theorem test_decodeBytes :
    decodeBytes [0x8A, 0xE4, 0x12] = .ok (.addReg 0xA 0xE, [0x12]) ∧ decodeBytes [0x8A] = .error .truncated := by
  decide

theorem test_decodeTableWord : decodeTableWord 16 0x3AFF = some (.seImm 0xA 0xFF) ∧ decodeTableWord 16 0xF000 = none := by
  decide

/-! ### The instructions (95_test_vectors.md 1.2, 2.2 to 2.4): post V[a], V[b], PC -/

theorem test_jp_fff : inject 0x1FFF [] 0 0 = some (0, 0, 0x0FFF) := by decide
theorem test_seImm_equal : inject 0x3AFF [(0xA, 0xFF)] 0xA 0xF = some (0xFF, 0, 0x0204) := by decide
theorem test_seImm_differs : inject 0x3F01 [(0xF, 0x02)] 0xF 0 = some (0x02, 0, 0x0202) := by decide
theorem test_sneImm_equal : inject 0x4A00 [] 0xA 0xF = some (0, 0, 0x0202) := by decide
theorem test_sneImm_differs : inject 0x4FFF [] 0xF 0 = some (0, 0, 0x0204) := by decide
theorem test_seReg_equal : inject 0x5AB0 [(0xA, 7), (0xB, 7)] 0xA 0xB = some (7, 7, 0x0204) := by decide
theorem test_seReg_differs : inject 0x5AB0 [(0xA, 7), (0xB, 8)] 0xA 0xB = some (7, 8, 0x0202) := by decide
theorem test_ldImm_vf : inject 0x6F33 [(0xF, 0xAA)] 0xF 0 = some (0x33, 0, 0x0202) := by decide
theorem test_addImm_wraps : inject 0x7AFF [(0xA, 0xFF), (0xF, 0xAA)] 0xA 0xF = some (0xFE, 0xAA, 0x0202) := by decide
theorem test_addImm_vf : inject 0x7F02 [(0xF, 0xFF)] 0xF 0 = some (0x01, 0, 0x0202) := by decide
theorem test_ldReg : inject 0x8120 [(1, 0x12), (2, 0x34), (0xF, 0xAA)] 1 0xF = some (0x34, 0xAA, 0x0202) := by decide
theorem test_or : inject 0x8121 [(1, 0x12), (2, 0x34), (0xF, 0xAA)] 1 0xF = some (0x36, 0xAA, 0x0202) := by decide
theorem test_and : inject 0x8122 [(1, 0x12), (2, 0x34), (0xF, 0xAA)] 1 0xF = some (0x10, 0xAA, 0x0202) := by decide
theorem test_xor : inject 0x8123 [(1, 0x12), (2, 0x34), (0xF, 0xAA)] 1 0xF = some (0x26, 0xAA, 0x0202) := by decide
theorem test_addReg_carry : inject 0x8AE4 [(0xA, 0xFF), (0xE, 0xFA)] 0xA 0xF = some (0xF9, 1, 0x0202) := by decide
theorem test_addReg_into_vf : inject 0x8F24 [(0xF, 0xFF), (2, 0x02)] 0xF 2 = some (0x01, 0x02, 0x0202) := by decide
theorem test_sub_borrow : inject 0x8125 [(1, 0x12), (2, 0x34)] 1 0xF = some (0xDE, 0, 0x0202) := by decide
theorem test_sub_vf_operand : inject 0x81F5 [(1, 0xFF), (0xF, 0x02)] 1 0xF = some (0xFD, 1, 0x0202) := by decide
theorem test_shr_low_bit : inject 0x8AE6 [(0xA, 0x03)] 0xA 0xF = some (0x01, 1, 0x0202) := by decide
theorem test_shr_into_vf : inject 0x8F26 [(0xF, 0xFF), (2, 0x02)] 0xF 2 = some (0x7F, 0x02, 0x0202) := by decide
theorem test_subn_borrow : inject 0x8127 [(1, 0x34), (2, 0x12)] 1 0xF = some (0xDE, 0, 0x0202) := by decide
theorem test_subn_equal : inject 0x8127 [(1, 0x80), (2, 0x80)] 1 0xF = some (0x00, 1, 0x0202) := by decide
theorem test_shl_high_bit : inject 0x8AEE [(0xA, 0x8A)] 0xA 0xF = some (0x14, 1, 0x0202) := by decide
theorem test_shl_into_vf : inject 0x8F2E [(0xF, 0x81), (2, 0x01)] 0xF 2 = some (0x02, 0x01, 0x0202) := by decide

/-! ### The cycle, the errors and the host (95_test_vectors.md 2.2, 2.5, 2.6) -/

/-- mem[200] = 15, mem[201] = 6A is JP 56A: the byte order matters. -/
theorem test_step_big_endian : (nextOf (step (withBytes [0x15, 0x6A]))).map State.pc = some 0x056A := by decide

/-- P10: no program. -/
theorem test_step_no_program : latchOf (step State.reset) = some (true, 1, 0x0200, 0x0000, 0x0202) := by decide

/-- Fresh, PC written to 0FFF. -/
theorem test_step_out_of_bounds :
    latchOf (step (State.reset.writePC 0x0FFF)) = some (true, 2, 0x0FFF, 0x0000, 0x0FFF) := by decide

theorem test_execute_illegal : latchOf (execute 0x8AE8 State.reset) = some (true, 1, 0x0200, 0x8AE8, 0x0202) := by decide

/-- Inject reads no memory: PC 0FFF is no error; PC FFFE wraps. -/
theorem test_execute_unchecked_pc :
    latchOf (execute 0x6A15 (State.reset.writePC 0x0FFF)) = some (false, 0, 0, 0, 0x1001) ∧
    latchOf (execute 0x3000 (State.reset.writePC 0xFFFE)) = some (false, 0, 0, 0, 0x0002) := by decide

theorem test_load_bytes :
    (withBytes [0x6A, 0x15, 0x12, 0x02]).mem = [(0x200, 0x6A), (0x201, 0x15), (0x202, 0x12), (0x203, 0x02)] := by decide

/-- A second load overwrites only its range: `load([11,22,33])`, then `load([AA])`. -/
theorem test_load_twice :
    (hostLoad [0xAA] (withBytes [0x11, 0x22, 0x33])).mem = [(0x200, 0xAA), (0x201, 0x22), (0x202, 0x33)] := by decide

/-- Writing zero removes the cell, so the memory is the fresh one again (20_memory.md R43). -/
theorem test_write_zero : hostLoad [0x00] (withBytes [0x11]) = State.reset := by decide

/-- The host's reads (70_reset_and_hazards.md R164), on a halted machine too. -/
theorem test_host_reads :
    (nextOf (step (withBytes [0xFF, 0x01]))).map
      (fun t => (hostReadV t 3, hostReadI t, hostReadPC t, hostReadMem t 0x200)) = some (0, 0, 0x0202, 0xFF) ∧
    (nextOf (step (withBytes [0xFF, 0x01]))).map hostReadFault = some (true, 1, 0x0200, 0xFF01) := by decide

/-- `withFetchWord` places the word for the next step, from the halted state of P10 too. -/
theorem test_withFetchWord :
    (nextOf (step (State.reset.withFetchWord 16 0x6A15))).map (fun t => (t.readV 0xA, t.pc)) = some (0x15, 0x0202) ∧
    ((nextOf (step State.reset)).bind fun t => nextOf (step (t.withFetchWord 16 0x6A15))).map
      (fun t => (t.readV 0xA, t.pc, t.halted)) = some (0x15, 0x0204, false) := by decide

/-- Scenario S5: `execute(1FFF)` is one instruction, and the `step` after it is none but an error. -/
theorem test_hostRun_two_invocations :
    (HostOp.execute 0x1FFF).instruction State.reset = some (.jp 0xFFF) ∧
    ((nextOf (hostRun [.execute 0x1FFF] State.reset)).bind HostOp.step.instruction) = none ∧
    latchOf (hostRun [.execute 0x1FFF, .step] State.reset) = some (true, 2, 0x0FFF, 0x0000, 0x0FFF) := by decide

/-- The example of R162 followed by one `step`: VA = 15 (R70), and one invocation runs one instruction only. -/
theorem test_hostRun_load_step :
    (nextOf (hostRun [.load [0x6A, 0x15, 0x12, 0x02], .step] State.reset)).map
      (fun t => (t.readV 0xA, t.pc, HostOp.step.instruction t)) = some (0x15, 0x0202, some (.jp 0x202)) := by decide

/-! ### Witnesses: states and operands that meet the hypotheses of each statement -/

/-- A running engine with the word 0x3000, skip if V0 is 0, in the last two bytes of memory, and PC there. -/
def atTop : State := (State.reset.memWrite 0xFFE 0x30).writePC 0x0FFE

/-- The halted state that stepping the fresh machine leaves. -/
def halted : State := State.reset.advance.raiseUnimplementedOpcode 0x0200 0x0000

theorem witness_EncodeOfDecodeIsTheWord : decode 0x8AE4 = .ok (.addReg 0xA 0xE) := by decide

theorem witness_FetchIsBigEndianAtAnyAddress :
    atTop.memRead atTop.pc.toNat = some 0x30 ∧ atTop.memRead (atTop.pc.toNat + 1) = some 0x00 := by decide

theorem witness_StepRunsTheDecodedInstruction :
    atTop.halted = false ∧ atTop.memRead atTop.pc.toNat = some 0x30 ∧ atTop.memRead (atTop.pc.toNat + 1) = some 0x00 ∧
    decodeBytes [0x30, 0x00] = .ok (.seImm 0 0, []) := by decide

theorem witness_ExecuteRunsTheDecodedInstruction :
    State.reset.halted = false ∧ decode 0x1FFF = .ok (.jp 0xFFF) := by decide

theorem witness_StepIsExecuteOfTheFetchedWord :
    atTop.fetch = some 0x3000 ∧ (halted.writePC 0x0000).fetch = some 0x0000 := by decide

/-- One word for each clause: jump, each skip, and an instruction without control transfer. -/
theorem witness_PcAfterAnInstruction :
    ((withBytes [0x1F, 0xFF]).halted = false ∧ (withBytes [0x1F, 0xFF]).fetch = some 0x1FFF ∧
      decode 0x1FFF = .ok (.jp 0xFFF)) ∧
    (atTop.halted = false ∧ atTop.fetch = some 0x3000 ∧ decode 0x3000 = .ok (.seImm 0 0)) ∧
    ((withBytes [0x40, 0x00]).halted = false ∧ (withBytes [0x40, 0x00]).fetch = some 0x4000 ∧
      decode 0x4000 = .ok (.sneImm 0 0)) ∧
    ((withBytes [0x5F, 0xF0]).halted = false ∧ (withBytes [0x5F, 0xF0]).fetch = some 0x5FF0 ∧
      decode 0x5FF0 = .ok (.seReg 0xF 0xF)) ∧
    ((withBytes [0x60, 0x07]).halted = false ∧ (withBytes [0x60, 0x07]).fetch = some 0x6007 ∧
      decode 0x6007 = .ok (.ldImm 0 7)) := by decide

/-- The bound is met: the taken skip at 0x0FFE leaves PC = 0x1002 (95_test_vectors.md 2.2). -/
theorem witness_SteppedPcIsAtMost1002 :
    atTop.halted = false ∧ step atTop = .next (atTop.writePC 0x1002) ∧ (atTop.writePC 0x1002).halted = false :=
  ⟨rfl, rfl, rfl⟩

/-- The one hypothesis of the statements of one instruction's result, `halted = false`: JumpSetsPcToNnn,
SkipIfEqualImmediate, SkipIfNotEqualImmediate, SkipIfRegistersEqual, LoadImmediateSetsRegister,
AddImmediateWrapsWithoutFlag, CopySetsRegister, OrIsBitwise, AndIsBitwise, NextInstructionTestsTheCarry. -/
theorem witness_running : State.reset.halted = false ∧ (withRegs [(0xA, 0xFF)]).halted = false := by decide

theorem witness_XorIsBitwise : State.reset.halted = false ∧ (0xF : RegIndex) = 0xF := by decide

/-- The hypotheses of AddRegisterSetsCarry, SubtractSetsNoBorrow, ShiftRightCapturesLowBit,
ReverseSubtractSetsNoBorrow, ShiftLeftCapturesHighBit and ShiftLeftIsAddToItself, at the last X they take. -/
theorem witness_x_not_flag : (0xE : RegIndex) ≠ 0xF ∧ (withRegs [(0xE, 0xFF), (0xF, 1)]).halted = false := by decide

theorem witness_SubnMirrorsSub : (0xE : RegIndex) ≠ 0xF ∧ (0 : RegIndex) ≠ 0xF := by decide

/-- A register neither read nor written; one written and not read; one read and not written. -/
theorem witness_RegistersReadAndWritten :
    ((3 : RegIndex) ∉ regReads (.addReg 1 2) ∧ (3 : RegIndex) ∉ regWrites (.addReg 1 2)) ∧
    ((0xF : RegIndex) ∉ regReads (.addReg 1 2) ∧ (0xF : RegIndex) ∈ regWrites (.addReg 1 2)) ∧
    (2 : RegIndex) ∉ regWrites (.addReg 1 2) := by decide

theorem witness_ShiftsAreIndependentOfY : (0xE : RegIndex) ≠ 0xA ∧ (0xE : RegIndex) ≠ 0xF := by decide

theorem witness_FlagRegisterWrites : (0xE : RegIndex) ≠ 0xF ∧ (0 : RegIndex) ≠ 0xF := by decide

/-- Each of the four forms. -/
theorem witness_ControlTransferFrame :
    exec (.jp 0xFFF) State.reset = .next (State.reset.writePC 0x0FFF) ∧
    exec (.seImm 0 0) State.reset = .next (State.reset.writePC 0x0202) ∧
    exec (.sneImm 0 0) State.reset = .next State.reset ∧
    exec (.seReg 0xF 0xF) State.reset = .next (State.reset.writePC 0x0202) :=
  ⟨rfl, rfl, rfl, rfl⟩

/-- An immediate form and a register form, destination VF too. -/
theorem witness_PlainRegisterWriteFrame :
    exec (.ldImm 0xF 0xAB) State.reset = .next (State.reset.writeV 0xF 0xAB) ∧
    exec (.addImm 0 1) State.reset = .next (State.reset.writeV 0 1) ∧
    (∃ t, exec (.xor 1 2) State.reset = .next t) ∧ (1 : RegIndex) ≠ 0xF :=
  ⟨rfl, rfl, ⟨_, rfl⟩, by decide⟩

theorem witness_FlagWritingFrame :
    (∃ t, exec (.addReg 1 2) State.reset = .next t) ∧ (∃ t, exec (.sub 0xF 2) State.reset = .next t) ∧
    (∃ t, exec (.shr 1 2) State.reset = .next t) ∧ (3 : RegIndex) ≠ 1 ∧ (3 : RegIndex) ≠ 0xF :=
  ⟨⟨_, rfl⟩, ⟨_, rfl⟩, ⟨_, rfl⟩, by decide, by decide⟩

/-- Two memories that differ elsewhere, here in the byte below the word. -/
theorem witness_StepReadsTwoBytesAndWritesNone :
    State.memRead { atTop with mem := [(0xFFD, 7), (0xFFE, 0x30)] } atTop.pc.toNat = atTop.memRead atTop.pc.toNat ∧
    State.memRead { atTop with mem := [(0xFFD, 7), (0xFFE, 0x30)] } (atTop.pc.toNat + 1) =
      atTop.memRead (atTop.pc.toNat + 1) ∧
    step atTop = .next (atTop.writePC 0x1002) :=
  ⟨rfl, rfl, rfl⟩

theorem witness_StepNeitherReadsNorWritesIndex : step atTop = .next (atTop.writePC 0x1002) := rfl

theorem witness_ExecuteIgnoresMemoryAndIndex :
    execute 0x1FFF State.reset = .next (State.reset.writePC 0x0FFF) := rfl

theorem witness_UnimplementedOpcodeHalts :
    State.reset.halted = false ∧ decode 0x0000 = .error (.unmappedClass 0) ∧ State.reset.fetch = some 0x0000 := by decide

/-- Both clauses at the boundary. -/
theorem witness_OutOfBoundsFetchHalts :
    (State.reset.writePC 0x0FFF).halted = false ∧ 0x0FFE < (State.reset.writePC 0x0FFF).pc.toNat ∧
    (State.reset.writePC 0x0FFE).pc.toNat ≤ 0x0FFE := by decide

theorem witness_UnwrittenMemoryHalts :
    State.reset.halted = false ∧ State.reset.memRead State.reset.pc.toNat = some 0 ∧
    State.reset.memRead (State.reset.pc.toNat + 1) = some 0 := by decide

/-- The shortest payload that is too long. -/
theorem witness_OverlongLoadHalts :
    State.reset.halted = false ∧ 3584 < (List.replicate 3585 (0xFF : Byte)).length :=
  ⟨rfl, by rw [List.length_replicate]; decide⟩

theorem witness_HaltedMachineIsFrozen : halted.halted = true ∧ HostOp.step ≠ HostOp.reset := by decide

/-- A step without error, and one for each error. -/
theorem witness_LatchTellsTheCause :
    (atTop.halted = false ∧ atTop.faultCause = .none ∧ operate .step atTop = .next (atTop.writePC 0x1002)) ∧
    (State.reset.halted = false ∧ State.reset.faultCause = .none ∧ operate .step State.reset = .next halted) ∧
    operate .step (State.reset.writePC 0x0FFF) =
      .next ((State.reset.writePC 0x0FFF).raise .outOfBoundsAddress 0x0FFF 0) ∧
    operate (.load (List.replicate 3585 0)) State.reset = .next (State.reset.raise .programTooLarge 0x0200 0) := by
  refine ⟨⟨rfl, rfl, rfl⟩, ⟨rfl, rfl, rfl⟩, rfl, ?_⟩
  have h : (List.replicate 3585 (0 : Byte)).length > Config.loadCapacity := by rw [List.length_replicate]; decide
  simp only [operate, hostLoad, h, if_true]
  rfl

/-- The longest payload that fits, and the empty one. -/
theorem witness_LoadPlacesThePayload :
    State.reset.halted = false ∧ State.reset.mem.wf = true ∧ (List.replicate 3584 (0xFF : Byte)).length ≤ 3584 ∧
    ([] : List Byte).length ≤ 3584 :=
  ⟨rfl, rfl, by rw [List.length_replicate], by decide⟩

theorem witness_HostWritesOneComponent : atTop.halted = false ∧ atTop.mem.wf = true := by decide

theorem witness_ResetThenLoadIsTheLaunchState : ([0x6A, 0x15, 0x12, 0x02] : List Byte).length ≤ 3584 := by decide

theorem witness_NextFetchSeesTheHostWrite :
    atTop.halted = false ∧ atTop.mem.wf = true ∧ atTop.pc.toNat = (0xFFE : Addr).toNat ∧
    (0xFFF : Addr).toNat = (0xFFE : Addr).toNat + 1 := by decide

/-- A running state, and one halted by each error. -/
theorem witness_StepKeepsTheInvariant :
    atTop.Inv ∧ step atTop = .next (atTop.writePC 0x1002) ∧ halted.Inv ∧
    ((State.reset.writePC 0x0FFF).raise .outOfBoundsAddress 0x0FFF 0).Inv ∧
    (State.reset.raise .programTooLarge 0x0200 0).Inv := by
  refine ⟨⟨rfl, rfl, rfl, rfl⟩, rfl, ⟨rfl, rfl, rfl, rfl⟩, ⟨rfl, rfl, rfl, ?_, rfl⟩, ⟨rfl, rfl, rfl, rfl⟩⟩
  decide

theorem witness_HostOperationsKeepTheInvariant :
    atTop.Inv ∧ operate (.writePC 0xFFFF) atTop = .next (atTop.writePC 0xFFFF) :=
  ⟨⟨rfl, rfl, rfl, rfl⟩, rfl⟩

/-- A reachable running state, and a reachable halted one. -/
theorem witness_ReachableLatchIsConsistent : Reachable State.reset ∧ Reachable halted :=
  ⟨.reset, .operation .step State.reset halted .reset rfl⟩

/-- A self-jump at the origin, and the last address a self-jump can stand at. -/
theorem witness_SelfJumpIsTheOnlyFixedPoint :
    ((withBytes [0x12, 0x00]).halted = false ∧ (withBytes [0x12, 0x00]).fetch = some 0x1200) ∧
    (((State.reset.memWrite 0xFFE 0x1F).memWrite 0xFFF 0xFE).writePC 0x0FFE).fetch = some 0x1FFE := by decide

end Sys2Proof.Tests
end

namespace Sys2Proof

/-! ## The invariant of the machine -/

/-! ### Which words no handler takes -/

/-- The second level of dispatch takes exactly the nine values of N of 30_encoding.md R56. -/
theorem dispatchAlu_isOk (f : Fields) :
    (dispatchAlu f).isOk = (f.n.toNat < 8 || f.n.toNat == 0xE) := by
  unfold dispatchAlu
  split
  case h_10 => simp_all [Except.isOk, Except.toBool]; omega
  all_goals next h => simp [h, Except.isOk, Except.toBool]

/-- The dispatcher takes exactly the fields that select an instruction (30_encoding.md R54, R56, R59). -/
theorem dispatch_isOk (f : Fields) : (dispatch f).isOk = f.mapped := by
  have hn : f.n = 0 ↔ f.n.toNat = 0 := by simp [← BitVec.toNat_inj]
  unfold dispatch
  split
  case h_4 h => split <;> simp_all [Fields.mapped, Except.isOk, Except.toBool]
  case h_7 h => simp [Fields.mapped, h, dispatchAlu_isOk]
  case h_8 => simp_all [Fields.mapped, Except.isOk, Except.toBool]
  all_goals next h => simp [Fields.mapped, h, Except.isOk, Except.toBool]

/-- A word that is no instruction has a class and N that select none (30_encoding.md R58). -/
theorem mapped_eq_false_of_decode_error {w : Word} {r : Reject} (h : decode w = .error r) :
    (fieldsOf w).mapped = false := by
  rw [← dispatch_isOk, ← decode, h]
  rfl

end Sys2Proof

namespace Sys2Proof.Machine

variable {s t : State}

/-! ### The invariant of a running engine, and of one that has just latched an error -/

/-- The invariant of a running engine: canonical memory and an empty latch (10_state.md R18). -/
theorem State.inv_iff_of_running (h : s.halted = false) :
    s.Inv ↔ s.mem.wf = true ∧ s.faultCause = .none ∧ s.faultPc = 0 ∧ s.faultWord = 0 := by
  unfold State.Inv State.LatchTruthful
  cases s.faultCause <;> simp [h]

/-- What a running engine changes outside its latch keeps the invariant, where memory stays canonical. -/
theorem State.Inv.of_running (hs : s.Inv) (hh : s.halted = false) (hm : t.mem.wf = true)
    (hth : t.halted = s.halted) (hc : t.faultCause = s.faultCause) (hp : t.faultPc = s.faultPc)
    (hw : t.faultWord = s.faultWord) : t.Inv := by
  rw [State.inv_iff_of_running hh] at hs
  rw [State.inv_iff_of_running (hth.trans hh), hc, hp, hw]
  exact ⟨hm, hs.2⟩

/-- The latch after `UnimplementedOpcode` tells the truth (60_exceptions.md R131). -/
theorem State.inv_raiseUnimplementedOpcode {w : Word} {r : Reject} (hm : s.mem.wf = true)
    (hw : decode w = .error r) : (s.advance.raiseUnimplementedOpcode s.pc w).Inv :=
  ⟨hm, rfl, rfl, mapped_eq_false_of_decode_error hw⟩

/-- The latch after `OutOfBoundsAddress` tells the truth (60_exceptions.md R132). -/
theorem State.inv_raiseOutOfBoundsAddress (hm : s.mem.wf = true) (hp : 0x0FFE < s.pc.toNat) :
    s.raiseOutOfBoundsAddress.Inv :=
  ⟨hm, rfl, rfl, hp, rfl⟩

/-- The latch after `ProgramTooLarge` tells the truth (60_exceptions.md R133). -/
theorem State.inv_raiseProgramTooLarge (hm : s.mem.wf = true) : s.raiseProgramTooLarge.Inv :=
  ⟨hm, rfl, rfl, rfl⟩

/-- The reset state has the invariant (10_state.md R22). -/
theorem State.inv_reset : State.reset.Inv := ⟨Memory.wf_nil, rfl, rfl, rfl⟩

/-! ### Each operation keeps the invariant -/

/-- A cycle of a running engine keeps the invariant: it changes registers and PC, or latches
`UnimplementedOpcode`. -/
theorem cycle_keeps_inv {w : Word} (hs : s.Inv) (hh : s.halted = false) (h : cycle w s = .next t) : t.Inv := by
  obtain ⟨-, v, pc, -, -, hc⟩ | ⟨r, hr, hc⟩ := cycle_cases w s
  · cases hc.symm.trans h
    exact hs.of_running hh hs.1 rfl rfl rfl rfl
  · cases hc.symm.trans h
    exact State.inv_raiseUnimplementedOpcode hs.1 hr

/-- `execute` of any word keeps the invariant. -/
theorem execute_keeps_inv {w : Word} (hs : s.Inv) (h : execute w s = .next t) : t.Inv := by
  cases hh : s.halted with
  | true =>
    cases (execute_of_halted hh).symm.trans h
    exact hs
  | false => exact cycle_keeps_inv hs hh ((execute_of_running hh).symm.trans h)

/-- A load of any payload keeps the invariant. -/
theorem hostLoad_keeps_inv (p : List Byte) (hs : s.Inv) : (hostLoad p s).Inv := by
  cases hh : s.halted with
  | true => rwa [hostLoad_of_halted p hh]
  | false =>
    by_cases hp : p.length ≤ Config.loadCapacity
    · have hfit : Config.origin + p.length ≤ Config.memSize := by
        simp only [Config.loadCapacity, Config.memSize, Config.origin] at hp ⊢
        omega
      rw [hostLoad_of_le hh hp]
      exact hs.of_running hh (Memory.wf_writeBytes hs.1 hfit) rfl rfl rfl rfl
    · rw [hostLoad_of_gt hh (by omega)]
      exact State.inv_raiseProgramTooLarge hs.1

/-- A host write keeps the invariant where the write does so on a running engine. -/
theorem hostWrite_keeps_inv {f : State → State} (hs : s.Inv) (hf : s.halted = false → (f s).Inv) :
    (hostWrite f s).Inv := by
  cases hh : s.halted with
  | true => rwa [hostWrite_of_halted f hh]
  | false => rw [hostWrite_of_running f hh]; exact hf hh

/-- Settles O57: a halted engine stays as it is, a fetch out of range latches a truthful error, and a cycle keeps
the invariant. -/
theorem stepKeepsTheInvariant : Obligations.StepKeepsTheInvariant := by
  intro s t hs h
  obtain ⟨-, hst⟩ | ⟨-, hp, hst⟩ | ⟨w, hh, -, hst⟩ := step_cases s
  · cases hst.symm.trans h
    exact hs
  · cases hst.symm.trans h
    exact State.inv_raiseOutOfBoundsAddress hs.1 hp
  · exact cycle_keeps_inv hs hh (hst.symm.trans h)

/-- Settles O58, operation by operation. -/
theorem hostOperationsKeepTheInvariant : Obligations.HostOperationsKeepTheInvariant := by
  intro o s t hs h
  cases o with
  | step => exact stepKeepsTheInvariant s t hs h
  | execute w => exact execute_keeps_inv hs h
  | reset => cases h; exact State.inv_reset
  | load p => cases h; exact hostLoad_keeps_inv p hs
  | writeMem a b =>
    cases h
    exact hostWrite_keeps_inv hs fun hh => hs.of_running hh (Memory.wf_write hs.1 a.isLt) rfl rfl rfl rfl
  | writeV | writeI | writePC =>
    cases h
    exact hostWrite_keeps_inv hs fun hh => hs.of_running hh hs.1 rfl rfl rfl rfl

/-! ### Reachable states -/

/-- Every reachable state has the invariant. -/
theorem Reachable.inv (h : Reachable s) : s.Inv := by
  induction h with
  | reset => exact State.inv_reset
  | operation o s t _ ho ih => exact hostOperationsKeepTheInvariant o s t ih ho

/-- A truthful latch is set exactly when it has a cause, and empty otherwise (10_state.md R18). -/
theorem State.LatchTruthful.consistent (h : s.LatchTruthful) :
    (s.halted = true ↔ s.faultCause ≠ .none) ∧ (s.halted = false → s.faultPc = 0 ∧ s.faultWord = 0) := by
  unfold State.LatchTruthful at h
  cases hc : s.faultCause <;> simp_all

/-- Settles O59: a reachable state has the invariant, so its latch is truthful. -/
theorem reachableLatchIsConsistent : Obligations.ReachableLatchIsConsistent :=
  fun _ h => h.inv.2.consistent

end Sys2Proof.Machine

namespace Sys2Proof.Machine

/-! ## What each handler does -/

section
variable (s : State)

/-! ### One equation per instruction -/

theorem exec_jp (nnn : Addr) : exec (.jp nnn) s = .next (s.writePC (immNNN nnn)) := rfl
theorem exec_seImm (x : RegIndex) (nn : Byte) :
    exec (.seImm x nn) s = .next (s.skipIf (s.readV x == nn)) := rfl
theorem exec_sneImm (x : RegIndex) (nn : Byte) :
    exec (.sneImm x nn) s = .next (s.skipIf (s.readV x != nn)) := rfl
theorem exec_seReg (x y : RegIndex) :
    exec (.seReg x y) s = .next (s.skipIf (s.readV x == s.readV y)) := rfl
theorem exec_ldImm (x : RegIndex) (nn : Byte) : exec (.ldImm x nn) s = .next (s.writeV x nn) := rfl
theorem exec_addImm (x : RegIndex) (nn : Byte) :
    exec (.addImm x nn) s = .next (s.writeV x (sumMod256 (s.readV x) nn)) := rfl
theorem exec_ldReg (x y : RegIndex) : exec (.ldReg x y) s = .next (s.writeV x (s.readV y)) := rfl
theorem exec_or (x y : RegIndex) :
    exec (.or x y) s = .next (s.writeV x (s.readV x ||| s.readV y)) := rfl
theorem exec_and (x y : RegIndex) :
    exec (.and x y) s = .next (s.writeV x (s.readV x &&& s.readV y)) := rfl
theorem exec_xor (x y : RegIndex) :
    exec (.xor x y) s = .next (s.writeV x (s.readV x ^^^ s.readV y)) := rfl
theorem exec_addReg (x y : RegIndex) :
    exec (.addReg x y) s = .next (s.writeResultThenFlag x (sumMod256 (s.readV x) (s.readV y))
      (carryFlag (s.readV x) (s.readV y))) := rfl
theorem exec_sub (x y : RegIndex) :
    exec (.sub x y) s = .next (s.writeResultThenFlag x (diffMod256 (s.readV x) (s.readV y))
      (noBorrowFlag (s.readV x) (s.readV y))) := rfl
theorem exec_shr (x y : RegIndex) :
    exec (.shr x y) s = .next (s.writeFlagThenResult x (shiftedOutLow (s.readV x))
      (shiftRight1 (s.readV x))) := rfl
theorem exec_subn (x y : RegIndex) :
    exec (.subn x y) s = .next (s.writeResultThenFlag x (diffMod256 (s.readV y) (s.readV x))
      (noBorrowFlag (s.readV y) (s.readV x))) := rfl
theorem exec_shl (x y : RegIndex) :
    exec (.shl x y) s = .next (s.writeFlagThenResult x (shiftedOutHigh (s.readV x))
      (shiftLeft1 (s.readV x))) := rfl

/-! ### The two write orders, and two writes of registers -/

@[simp] theorem State.writeResultThenFlag_pc (x : RegIndex) (b f : Byte) :
    (s.writeResultThenFlag x b f).pc = s.pc := rfl
@[simp] theorem State.writeFlagThenResult_pc (x : RegIndex) (f b : Byte) :
    (s.writeFlagThenResult x f b).pc = s.pc := rfl

/-- After a result and then the flag, VF holds the flag, also where it is the destination (43_alu.md R123). -/
@[simp] theorem State.readV_flag_writeResultThenFlag (x : RegIndex) (b f : Byte) :
    (s.writeResultThenFlag x b f).readV 0xF = f :=
  State.readV_writeV_self _ _ _

/-- After the flag and then a result elsewhere, VF holds the flag. -/
theorem State.readV_flag_writeFlagThenResult {x : RegIndex} (f b : Byte) (h : x ≠ 0xF) :
    (s.writeFlagThenResult x f b).readV 0xF = f :=
  (State.readV_writeV_of_ne _ b h).trans (State.readV_writeV_self _ _ _)

/-- The later of two writes of one register stays. -/
@[simp] theorem State.writeV_writeV_self (r : RegIndex) (b c : Byte) : (s.writeV r b).writeV r c = s.writeV r c := by
  simp [State.writeV]

/-- Writes of two registers commute. -/
theorem State.writeV_comm {r q : RegIndex} (b c : Byte) (h : r ≠ q) :
    (s.writeV r b).writeV q c = (s.writeV q c).writeV r b := by
  simp only [State.writeV, State.mk.injEq, and_true]
  exact Vector.set_comm _ _ (Fin.val_ne_of_ne h)

/-- A skip and the write of a register commute. -/
theorem State.skipIf_writeV (c : Bool) (r : RegIndex) (b : Byte) :
    (s.writeV r b).skipIf c = (s.skipIf c).writeV r b := by cases c <;> rfl

end

/-! ## The flag register -/

theorem flagByte_eq (c : Bool) : flagByte c = 0 ∨ flagByte c = 1 := by cases c <;> decide

/-- The bit a right shift pushes out is 0 or 1 (43_alu.md R117). -/
theorem shiftedOutLow_eq (b : Byte) : shiftedOutLow b = 0 ∨ shiftedOutLow b = 1 := by
  revert b; decide

/-- The bit a left shift pushes out is 0 or 1 (43_alu.md R119). -/
theorem shiftedOutHigh_eq (b : Byte) : shiftedOutHigh b = 0 ∨ shiftedOutHigh b = 1 := by
  revert b; decide

/-- VF after a result and then a flag value, wherever the result goes. -/
theorem State.readV_flag_of_resultThenFlag (s : State) (x : RegIndex) (b : Byte) (c : Bool) :
    (s.writeResultThenFlag x b (flagByte c)).readV 0xF = 0 ∨
      (s.writeResultThenFlag x b (flagByte c)).readV 0xF = 1 := by
  rw [State.readV_flag_writeResultThenFlag]
  exact flagByte_eq c

/-- VF after a flag of 0 or 1 and then a result in another register. -/
theorem State.readV_flag_of_flagThenResult (s : State) {x : RegIndex} {f : Byte} (b : Byte) (hf : f = 0 ∨ f = 1)
    (h : x ≠ 0xF) : (s.writeFlagThenResult x f b).readV 0xF = 0 ∨ (s.writeFlagThenResult x f b).readV 0xF = 1 := by
  rwa [State.readV_flag_writeFlagThenResult s f b h]

/-- Settles O37: the arithmetic forms write a flag value last, the shifts write one that a result elsewhere leaves,
and the others write VF only as their destination. -/
theorem flagRegisterWrites : Obligations.FlagRegisterWrites := by
  intro s i
  cases i with
  | jp => exact ⟨_, exec_jp .., rfl⟩
  | seImm => exact ⟨_, exec_seImm .., s.readV_skipIf _ _⟩
  | sneImm => exact ⟨_, exec_sneImm .., s.readV_skipIf _ _⟩
  | seReg => exact ⟨_, exec_seReg .., s.readV_skipIf _ _⟩
  | ldImm => exact ⟨_, exec_ldImm .., s.readV_writeV_of_ne _⟩
  | addImm => exact ⟨_, exec_addImm .., s.readV_writeV_of_ne _⟩
  | ldReg => exact ⟨_, exec_ldReg .., s.readV_writeV_of_ne _⟩
  | or => exact ⟨_, exec_or .., s.readV_writeV_of_ne _⟩
  | and => exact ⟨_, exec_and .., s.readV_writeV_of_ne _⟩
  | xor => exact ⟨_, exec_xor .., s.readV_writeV_of_ne _⟩
  | addReg => exact ⟨_, exec_addReg .., s.readV_flag_of_resultThenFlag _ _ _⟩
  | sub => exact ⟨_, exec_sub .., s.readV_flag_of_resultThenFlag _ _ _⟩
  | subn => exact ⟨_, exec_subn .., s.readV_flag_of_resultThenFlag _ _ _⟩
  | shr => exact ⟨_, exec_shr .., s.readV_flag_of_flagThenResult _ (shiftedOutLow_eq _)⟩
  | shl => exact ⟨_, exec_shl .., s.readV_flag_of_flagThenResult _ (shiftedOutHigh_eq _)⟩

/-! ## The program counter -/

/-- NNN as a value of PC is zero-extended (30_encoding.md R52). -/
theorem immNNN_eq_ofNat (nnn : Addr) : immNNN nnn = BitVec.ofNat 16 nnn.toNat := by simp [immNNN]

/-- Where the advance and a skip leave PC (40_execute_cycle.md R73, 41_control_transfer.md R91). -/
theorem State.advance_skipIf_pc (s : State) (c : Bool) :
    (s.advance.skipIf c).pc = if c then s.pc + 4 else s.pc + 2 := by
  rw [State.skipIf_pc, State.advance_pc, BitVec.add_assoc]
  rfl

/-- Settles O14: the advance adds 2, then the handler puts NNN into PC, adds 2 more, or leaves PC alone. -/
theorem pcAfterAnInstruction : Obligations.PcAfterAnInstruction := by
  intro s w i hh hf hd
  have hstep : step s = exec i s.advance := (step_of_fetch hh hf).trans (cycle_of_ok hd)
  cases i with
  | jp nnn => exact ⟨_, hstep.trans (exec_jp ..), immNNN_eq_ofNat nnn⟩
  | seImm => exact ⟨_, hstep.trans (exec_seImm ..), by rw [State.advance_skipIf_pc]; simp⟩
  | sneImm => exact ⟨_, hstep.trans (exec_sneImm ..), by rw [State.advance_skipIf_pc]; simp⟩
  | seReg => exact ⟨_, hstep.trans (exec_seReg ..), by rw [State.advance_skipIf_pc]; simp⟩
  | _ => exact ⟨_, hstep, rfl⟩

/-- Where an instruction leaves PC: at NNN, or 2 or 4 further. -/
theorem step_pc_cases {s t : State} {w : Word} {i : Instr} (hh : s.halted = false) (hf : s.fetch = some w)
    (hd : decode w = .ok i) (h : step s = .next t) :
    (∃ nnn : Addr, t.pc = BitVec.ofNat 16 nnn.toNat) ∨ t.pc = s.pc + 2 ∨ t.pc = s.pc + 4 := by
  obtain ⟨u, hu, hpc⟩ := pcAfterAnInstruction s w i hh hf hd
  cases hu.symm.trans h
  cases i with
  | jp nnn => exact .inl ⟨nnn, hpc⟩
  | seImm | seReg => rw [hpc]; exact .inr (ite_eq_or_eq ..).symm
  | sneImm => rw [hpc]; exact .inr (ite_eq_or_eq ..)
  | _ => exact .inr (.inl hpc)

/-- Settles O15: a word is fetched at 0x0FFE at most, and PC then goes at most 4 further or to a 12-bit address; every
other step leaves the engine halted. -/
theorem steppedPcIsAtMost1002 : Obligations.SteppedPcIsAtMost1002 := by
  intro s t hh h ht
  obtain ⟨hs, -⟩ | ⟨-, -, hst⟩ | ⟨w, -, hf, hst⟩ := step_cases s
  · simp [hh] at hs
  · cases hst.symm.trans h
    cases ht
  · have hle := State.pc_le_of_fetch hf
    cases hd : decode w with
    | error r =>
      cases (cycle_of_error hd).symm.trans (hst.symm.trans h)
      cases ht
    | ok i =>
      obtain ⟨nnn, hpc⟩ | hpc | hpc := step_pc_cases hh hf hd h <;> rw [hpc]
      · have := nnn.isLt
        rw [BitVec.toNat_ofNat]
        omega
      · bv_omega
      · bv_omega

/-! ## The index register -/

/-- A handler reads neither memory nor I, and leaves both alone (20_memory.md R35, 10_state.md R14). -/
theorem exec_with_mem_i {i : Instr} {s t : State} (m : Memory) (k : Word) (h : exec i s = .next t) :
    exec i { s with mem := m, i := k } = .next { t with mem := m, i := k } := by
  have hskip : ∀ c, State.skipIf c { s with mem := m, i := k } = { s.skipIf c with mem := m, i := k } := by
    intro c; cases c <;> rfl
  cases i with
  | seImm => cases h; exact congrArg _ (hskip _)
  | sneImm => cases h; exact congrArg _ (hskip _)
  | seReg => cases h; exact congrArg _ (hskip _)
  | _ => cases h; rfl

/-- A cycle leaves memory and I alone. -/
theorem cycle_mem_i {w : Word} {s t : State} (h : cycle w s = .next t) : t.mem = s.mem ∧ t.i = s.i := by
  obtain ⟨-, v, pc, -, -, hc⟩ | ⟨-, -, hc⟩ := cycle_cases w s <;> cases hc.symm.trans h <;> exact ⟨rfl, rfl⟩

/-- A cycle on a given word does the same with another memory and another I. -/
theorem cycle_with_mem_i {w : Word} {s t : State} (m : Memory) (k : Word) (h : cycle w s = .next t) :
    cycle w { s with mem := m, i := k } = .next { t with mem := m, i := k } := by
  cases hd : decode w with
  | ok i =>
    rw [cycle_of_ok hd] at h ⊢
    exact exec_with_mem_i m k h
  | error r =>
    rw [cycle_of_error hd] at h ⊢
    cases h
    rfl

/-- Settles O43: neither the fetch nor the cycle on the fetched word reads or writes I. -/
theorem stepNeitherReadsNorWritesIndex : Obligations.StepNeitherReadsNorWritesIndex := by
  intro s t k h
  obtain ⟨hh, hst⟩ | ⟨hh, hp, hst⟩ | ⟨w, hh, hf, hst⟩ := step_cases s
  · cases hst.symm.trans h
    exact ⟨rfl, step_of_halted hh⟩
  · cases hst.symm.trans h
    exact ⟨rfl, step_of_gt hh hp⟩
  · have hc : cycle w s = .next t := hst.symm.trans h
    obtain ⟨hm, hi⟩ := cycle_mem_i hc
    have hk : cycle w { s with i := k } = .next { t with mem := s.mem, i := k } := cycle_with_mem_i s.mem k hc
    rw [step_of_fetch (s := { s with i := k }) hh hf, hk, ← hm]
    exact ⟨hi, rfl⟩

/-! ## Registers read and written -/

/-- A value taken from the state depends on no other register than those listed. -/
def ReadsOnly {α : Type} (reads : List RegIndex) (g : State → α) : Prop :=
  ∀ (s : State) (r : RegIndex) (b : Byte), r ∉ reads → g (s.writeV r b) = g s

theorem readsOnly_const {α : Type} (c : α) : ReadsOnly [] fun _ => c := fun _ _ _ _ => rfl

theorem readsOnly_one {α : Type} (x : RegIndex) (f : Byte → α) : ReadsOnly [x] fun s => f (s.readV x) := by
  intro s r b hr
  simp only [s.readV_writeV_of_ne b (List.ne_of_not_mem_cons hr)]

theorem readsOnly_two {α : Type} (x y : RegIndex) (f : Byte → Byte → α) :
    ReadsOnly [x, y] fun s => f (s.readV x) (s.readV y) := by
  intro s r b hr
  simp only [List.mem_cons, List.not_mem_nil, or_false, not_or] at hr
  simp only [s.readV_writeV_of_ne b hr.1, s.readV_writeV_of_ne b hr.2]

/-- A handler's effect on the state writes no other register than those listed, and its outcome depends on no other
register than those listed: what another register holds is kept, or overwritten. -/
def HasFootprint (reads writes : List RegIndex) (f : State → State) : Prop :=
  ∀ (s : State) (r : RegIndex) (b : Byte),
    (r ∉ writes → (f s).readV r = s.readV r) ∧
    (r ∉ reads → r ∉ writes → f (s.writeV r b) = (f s).writeV r b) ∧
    (r ∉ reads → r ∈ writes → f (s.writeV r b) = f s)

/-- A jump has no register in its footprint. -/
theorem hasFootprint_writePC (w : Word) : HasFootprint [] [] (State.writePC w) := by
  intro s r b
  exact ⟨fun _ => rfl, fun _ _ => rfl, fun _ h => absurd h List.not_mem_nil⟩

/-- A skip reads what its condition reads. -/
theorem hasFootprint_skipIf {reads : List RegIndex} {c : State → Bool} (hc : ReadsOnly reads c) :
    HasFootprint reads [] fun s => s.skipIf (c s) := by
  intro s r b
  refine ⟨fun _ => s.readV_skipIf _ r, fun hr _ => ?_, fun _ h => absurd h List.not_mem_nil⟩
  simp only [hc s r b hr, s.skipIf_writeV]

/-- The write of one register reads what the written value reads. -/
theorem hasFootprint_writeV {reads : List RegIndex} {g : State → Byte} (x : RegIndex) (hg : ReadsOnly reads g) :
    HasFootprint reads [x] fun s => s.writeV x (g s) := by
  intro s r b
  simp only [List.mem_singleton]
  refine ⟨fun h => s.readV_writeV_of_ne _ (Ne.symm h), fun hr h => ?_, fun hr h => ?_⟩
  · rw [hg s r b hr, s.writeV_comm b _ h]
  · rw [hg s r b hr, h, s.writeV_writeV_self]

/-- Two writes, in this order, of values formed before both read what the values read. -/
theorem hasFootprint_writeV_writeV {reads : List RegIndex} {g h : State → Byte} (x y : RegIndex)
    (hg : ReadsOnly reads g) (hh : ReadsOnly reads h) :
    HasFootprint reads [x, y] fun s => (s.writeV x (g s)).writeV y (h s) := by
  intro s r b
  simp only [List.mem_cons, List.not_mem_nil, or_false, not_or]
  refine ⟨fun hr => ?_, fun hr hw => ?_, fun hr hw => ?_⟩
  · rw [State.readV_writeV_of_ne _ _ (Ne.symm hr.2), State.readV_writeV_of_ne _ _ (Ne.symm hr.1)]
  · rw [hg s r b hr, hh s r b hr, s.writeV_comm b _ hw.1, State.writeV_comm _ b _ hw.2]
  · rw [hg s r b hr, hh s r b hr]
    by_cases hx : r = x
    · rw [hx, s.writeV_writeV_self]
    · have hy : r = y := hw.resolve_left hx
      rw [s.writeV_comm b _ hx, hy, State.writeV_writeV_self]

/-- The order in which the written registers are listed does not matter. -/
theorem HasFootprint.swap {reads : List RegIndex} {x y : RegIndex} {f : State → State}
    (h : HasFootprint reads [x, y] f) : HasFootprint reads [y, x] f := by
  intro s r b
  have hmem : r ∈ [y, x] ↔ r ∈ [x, y] := by simp [or_comm]
  simpa only [hmem] using h s r b

/-- Every handler's effect has the footprint of 10_state.md R12's table. -/
theorem exec_hasFootprint (i : Instr) :
    ∃ f, (∀ s, exec i s = .next (f s)) ∧ HasFootprint (regReads i) (regWrites i) f := by
  cases i with
  | jp nnn => exact ⟨_, fun s => exec_jp s nnn, hasFootprint_writePC _⟩
  | seImm x nn => exact ⟨_, fun s => exec_seImm s x nn, hasFootprint_skipIf (readsOnly_one x (· == nn))⟩
  | sneImm x nn => exact ⟨_, fun s => exec_sneImm s x nn, hasFootprint_skipIf (readsOnly_one x (· != nn))⟩
  | seReg x y => exact ⟨_, fun s => exec_seReg s x y, hasFootprint_skipIf (readsOnly_two x y (· == ·))⟩
  | ldImm x nn => exact ⟨_, fun s => exec_ldImm s x nn, hasFootprint_writeV x (readsOnly_const nn)⟩
  | addImm x nn => exact ⟨_, fun s => exec_addImm s x nn, hasFootprint_writeV x (readsOnly_one x (sumMod256 · nn))⟩
  | ldReg x y => exact ⟨_, fun s => exec_ldReg s x y, hasFootprint_writeV x (readsOnly_one y id)⟩
  | or x y => exact ⟨_, fun s => exec_or s x y, hasFootprint_writeV x (readsOnly_two x y (· ||| ·))⟩
  | and x y => exact ⟨_, fun s => exec_and s x y, hasFootprint_writeV x (readsOnly_two x y (· &&& ·))⟩
  | xor x y => exact ⟨_, fun s => exec_xor s x y, hasFootprint_writeV x (readsOnly_two x y (· ^^^ ·))⟩
  | addReg x y =>
    exact ⟨_, fun s => exec_addReg s x y,
      hasFootprint_writeV_writeV x _ (readsOnly_two x y sumMod256) (readsOnly_two x y carryFlag)⟩
  | sub x y =>
    exact ⟨_, fun s => exec_sub s x y,
      hasFootprint_writeV_writeV x _ (readsOnly_two x y diffMod256) (readsOnly_two x y noBorrowFlag)⟩
  | subn x y =>
    exact ⟨_, fun s => exec_subn s x y, hasFootprint_writeV_writeV x _
      (readsOnly_two x y fun vx vy => diffMod256 vy vx) (readsOnly_two x y fun vx vy => noBorrowFlag vy vx)⟩
  | shr x y =>
    exact ⟨_, fun s => exec_shr s x y,
      (hasFootprint_writeV_writeV _ x (readsOnly_one x shiftedOutLow) (readsOnly_one x shiftRight1)).swap⟩
  | shl x y =>
    exact ⟨_, fun s => exec_shl s x y,
      (hasFootprint_writeV_writeV _ x (readsOnly_one x shiftedOutHigh) (readsOnly_one x shiftLeft1)).swap⟩

/-- Settles O35: the handler's footprint is the table's, and the handler answers a next state from every state. -/
theorem registersReadAndWritten : Obligations.RegistersReadAndWritten := by
  intro i s r b
  obtain ⟨f, hf, hfoot⟩ := exec_hasFootprint i
  simpa [hf] using hfoot s r b

end Sys2Proof.Machine

namespace Sys2Proof

/-! ## Memory as the fetch sees it -/

/-! ### The bytes of a word, as arithmetic on its value (20_memory.md R32) -/

theorem highByte_eq_ofNat (w : Word) : highByte w = BitVec.ofNat 8 (w.toNat / 256) := by
  rw [highByte, BitVec.extractLsb', Nat.shiftRight_eq_div_pow]

theorem lowByte_eq_ofNat (w : Word) : lowByte w = BitVec.ofNat 8 (w.toNat % 256) := by
  apply BitVec.eq_of_toNat_eq
  simp [lowByte]

end Sys2Proof

namespace Sys2Proof.Machine

/-! ### The fetch depends on two bytes -/

/-- A fetch composes the bytes read at PC and PC + 1 (20_memory.md R32). -/
theorem State.fetch_of_memRead {s : State} {hi lo : Byte} (hhi : s.memRead s.pc.toNat = some hi)
    (hlo : s.memRead (s.pc.toNat + 1) = some lo) : s.fetch = some (wordOfBytes hi lo) := by
  simp only [State.fetch, hhi, hlo]

/-- With another memory that holds the same bytes at PC and PC + 1, the fetch is the same (20_memory.md R32). -/
theorem State.fetch_with_mem {s : State} {m : Memory}
    (hhi : ({ s with mem := m } : State).memRead s.pc.toNat = s.memRead s.pc.toNat)
    (hlo : ({ s with mem := m } : State).memRead (s.pc.toNat + 1) = s.memRead (s.pc.toNat + 1)) :
    ({ s with mem := m } : State).fetch = s.fetch := by
  simp only [State.fetch, hhi, hlo]

/-- Settles O9: the fetch composes the two bytes, and a composed word is 256 times its high byte plus its low byte. -/
theorem fetchIsBigEndianAtAnyAddress : Obligations.FetchIsBigEndianAtAnyAddress :=
  fun _ hi lo hhi hlo => ⟨_, State.fetch_of_memRead hhi hlo, toNat_wordOfBytes hi lo⟩

/-- Settles O47: the fetch composes the word 0, which no handler takes. -/
theorem unwrittenMemoryHalts : Obligations.UnwrittenMemoryHalts := by
  intro s hh hhi hlo
  have hf : s.fetch = some 0 := State.fetch_of_memRead hhi hlo
  have hd : decode 0 = .error (.unmappedClass 0) := rfl
  exact (step_of_fetch hh hf).trans (cycle_of_error hd)

/-- Settles O42: memory enters a step by the fetch alone, which depends on the two bytes; the cycle on the fetched
word carries memory along. -/
theorem stepReadsTwoBytesAndWritesNone : Obligations.StepReadsTwoBytesAndWritesNone := by
  intro s t m hhi hlo h
  obtain ⟨hh, hst⟩ | ⟨hh, hp, hst⟩ | ⟨w, hh, hf, hst⟩ := step_cases s
  · cases hst.symm.trans h
    exact ⟨rfl, step_of_halted hh⟩
  · cases hst.symm.trans h
    exact ⟨rfl, step_of_gt hh hp⟩
  · have hc : cycle w s = .next t := hst.symm.trans h
    obtain ⟨hm, hi⟩ := cycle_mem_i hc
    have hk : cycle w { s with mem := m } = .next { t with mem := m, i := s.i } := cycle_with_mem_i m s.i hc
    have hfm : ({ s with mem := m } : State).fetch = some w := (State.fetch_with_mem hhi hlo).trans hf
    rw [step_of_fetch (s := { s with mem := m }) hh hfm, hk, ← hi]
    exact ⟨hm, rfl⟩

/-! ### A word the host writes at PC -/

/-- Writing a word's high byte at PC and its low byte at the next address places the word (20_memory.md R32). -/
theorem State.memWrite_memWrite_eq_placeWord {s : State} (w : Word) {a b : Addr} (ha : s.pc.toNat = a.toNat)
    (hb : b.toNat = a.toNat + 1) : (s.memWrite a (highByte w)).memWrite b (lowByte w) = s.placeWord w := by
  simp only [State.memWrite, State.placeWord, bytesOfWord, Memory.writeBytes, ha, hb]

/-- A host write of a byte has its effect on a running engine (70_reset_and_hazards.md R165). -/
theorem operate_writeMem_of_running {s : State} (a : Addr) (b : Byte) (h : s.halted = false) :
    operate (.writeMem a b) s = .next (s.memWrite a b) :=
  congrArg _ (hostWrite_of_running _ h)

/-- Where the fetch finds a word, a step does what `execute` does on it, halted or not (40_execute_cycle.md R71). -/
theorem step_eq_execute_of_fetch {s : State} {w : Word} (hf : s.fetch = some w) : step s = execute w s := by
  cases hh : s.halted with
  | true => rw [step_of_halted hh, execute_of_halted hh]
  | false => rw [step_of_fetch hh hf, execute_of_running hh]

/-- Settles O55: the two writes place the word at PC, where the fetch finds it. -/
theorem nextFetchSeesTheHostWrite : Obligations.NextFetchSeesTheHostWrite := by
  intro s w a b hh hm ha hb
  have hp : s.pc.toNat ≤ 0x0FFE := by omega
  rw [← highByte_eq_ofNat, ← lowByte_eq_ofNat]
  refine ⟨s.memWrite a (highByte w), s.placeWord w, operate_writeMem_of_running _ _ hh, ?_, ?_⟩
  · rw [← State.memWrite_memWrite_eq_placeWord w ha hb]
    exact operate_writeMem_of_running _ _ ((s.memWrite_halted a _).trans hh)
  · exact step_eq_execute_of_fetch (State.fetch_placeWord w hm hp)

end Sys2Proof.Machine

namespace Sys2Proof

/-! ## Encoding -/

@[simp] theorem regOfField_val (f : Nibble) : (regOfField f).val = f.toNat := rfl

/-! ### A word is laid out from its own fields -/

theorem wordNNN_fieldsOf (w : Word) : wordNNN (fieldsOf w).cls (fieldsOf w).nnn = w := by
  obtain ⟨hc, hn⟩ := fieldsOf_wordNNN (fieldsOf w).cls (fieldsOf w).nnn
  exact word_ext_fields hc hn

theorem wordXNN_fieldsOf (w : Word) :
    wordXNN (fieldsOf w).cls (regOfField (fieldsOf w).x) (fieldsOf w).nn = w := by
  obtain ⟨hc, hx, -, -, hn, -⟩ := fieldsOf_toNat w
  apply BitVec.eq_of_toNat_eq
  rw [toNat_wordXNN, regOfField_val]
  omega

theorem wordXYN_fieldsOf (w : Word) :
    wordXYN (fieldsOf w).cls (regOfField (fieldsOf w).x) (regOfField (fieldsOf w).y) (fieldsOf w).n = w := by
  obtain ⟨hc, hx, hy, hn, -, -⟩ := fieldsOf_toNat w
  apply BitVec.eq_of_toNat_eq
  rw [toNat_wordXYN, regOfField_val, regOfField_val]
  omega

/-- A field is the value the dispatcher found it to hold. -/
theorem nibble_eq_of_toNat {f : Nibble} {k : Nat} (h : f.toNat = k) : f = BitVec.ofNat 4 k := by
  rw [← h, BitVec.ofNat_toNat, BitVec.setWidth_eq]

/-! ### Decode and encode are inverse -/

/-- The word of an instruction decodes to it (30_encoding.md R55). -/
@[simp] theorem decode_encode (i : Instr) : decode (encode i) = .ok i := by
  cases i with
  | jp => simp [encode, decode, dispatch, fieldsOf_wordNNN]
  | seImm | sneImm | ldImm | addImm => simp [encode, decode, dispatch, fieldsOf_wordXNN]
  | seReg => simp [encode, decode, dispatch, fieldsOf_wordXYN]
  | _ => simp [encode, decode, dispatch, dispatchAlu, fieldsOf_wordXYN]

/-- The decoder on the two bytes of a word reads that word and leaves no byte (20_memory.md R32). -/
theorem decodeBytes_bytesOfWord {w : Word} {i : Instr} (h : decode w = .ok i) :
    decodeBytes (bytesOfWord w) = .ok (i, []) := by
  simp [decodeBytes, bytesOfWord, h]

/-- Settles O1: the dispatcher finds on every layout the fields it was laid out from, and a word is its two bytes. -/
theorem decodeOfEncodeIsTheInstruction : Obligations.DecodeOfEncodeIsTheInstruction :=
  fun i => ⟨decode_encode i, decodeBytes_bytesOfWord (decode_encode i)⟩

/-- What the second level of dispatch takes is, encoded, the layout of class 8 from the fields. -/
theorem encode_of_dispatchAlu {f : Fields} {i : Instr} (h : dispatchAlu f = .ok i) :
    encode i = wordXYN 0x8 (regOfField f.x) (regOfField f.y) f.n := by
  unfold dispatchAlu at h
  split at h
  case h_10 => cases h
  all_goals next hn => cases h; rw [nibble_eq_of_toNat hn]; rfl

/-- Encoding what a word decodes to gives the word (30_encoding.md R50, R55). -/
theorem encode_of_decode {w : Word} {i : Instr} (h : decode w = .ok i) : encode i = w := by
  have hNNN := wordNNN_fieldsOf w
  have hXNN := wordXNN_fieldsOf w
  have hXYN := wordXYN_fieldsOf w
  unfold decode dispatch at h
  split at h
  case h_1 hc => cases h; rwa [nibble_eq_of_toNat hc] at hNNN
  case h_4 hc =>
    split at h
    case isTrue hn => cases h; rwa [nibble_eq_of_toNat hc, hn] at hXYN
    case isFalse => cases h
  case h_7 hc => rw [encode_of_dispatchAlu h]; rwa [nibble_eq_of_toNat hc] at hXYN
  case h_8 => cases h
  all_goals next hc => cases h; rwa [nibble_eq_of_toNat hc] at hXNN

/-- Settles O2, by the branches of the dispatcher: each keeps every field of the word. -/
theorem encodeOfDecodeIsTheWord : Obligations.EncodeOfDecodeIsTheWord :=
  fun _ _ => encode_of_decode

/-! ### The words with well-formed fields -/

/-- A word decodes exactly when its class and N select an instruction (30_encoding.md R54, R56). -/
theorem exists_decode_iff_mapped (w : Word) : (∃ i, decode w = .ok i) ↔ (fieldsOf w).mapped = true := by
  rw [← dispatch_isOk, ← decode]
  cases decode w <;> simp [Except.isOk, Except.toBool]

/-- The fields of a word overlap as 30_encoding.md R50 says, so the class and N decide whether they are well-formed. -/
theorem wellFormed_fieldsOf (w : Word) : (fieldsOf w).wellFormed = (fieldsOf w).mapped := by
  obtain ⟨-, hx, hy, hn, hnn, hnnn⟩ := fieldsOf_toNat w
  have h1 : (fieldsOf w).nnAgrees = true := beq_iff_eq.mpr (by omega)
  have h2 : (fieldsOf w).nnnAgrees = true := beq_iff_eq.mpr (by omega)
  rw [Fields.wellFormed, h1, h2, Bool.true_and, Bool.true_and]

/-- Settles O5: the dispatcher takes the mapped fields, and the fields of a word are well-formed where mapped. -/
theorem wordDecodesExactlyWhenFieldsWellFormed : Obligations.WordDecodesExactlyWhenFieldsWellFormed := by
  intro w
  rw [wellFormed_fieldsOf, exists_decode_iff_mapped]

/-! ### The rows of the opcode table -/

/-- The word of an instruction has the fixed bits of its row (30_encoding.md R55). -/
theorem encode_and_mask (i : Instr) : encode i &&& i.mask = i.matchBits := by
  cases i with
  | jp => exact Laws.TableRow.mask_wordNNN _ _
  | seImm | sneImm | ldImm | addImm => exact Laws.TableRow.mask_wordXNN _ _ _
  | _ => exact Laws.TableRow.mask_wordXYN _ _ _ _

/-- A word that decodes to an instruction has the fixed bits of its row. -/
theorem and_mask_of_decode {w : Word} {i : Instr} (h : decode w = .ok i) : w &&& i.mask = i.matchBits := by
  rw [← encode_of_decode h, encode_and_mask]

/-- A word has the fixed bits of an instruction's row exactly when it decodes to the instruction, where the
instruction's operands are such that those bits make it the instruction's word. -/
theorem and_mask_iff_decode {w : Word} {i : Instr} (hi : w &&& i.mask = i.matchBits → encode i = w) :
    w &&& i.mask = i.matchBits ↔ decode w = .ok i :=
  ⟨fun h => hi h ▸ decode_encode i, and_mask_of_decode⟩

/-- The mask 0xF000 keeps the class. -/
theorem cls_and_F000 (w : Word) : (fieldsOf (w &&& 0xF000)).cls = (fieldsOf w).cls :=
  BitVec.extractLsb'_and.trans (Laws.TableRow.mask_ones _)

/-- The mask 0xF00F keeps the class. -/
theorem cls_and_F00F (w : Word) : (fieldsOf (w &&& 0xF00F)).cls = (fieldsOf w).cls :=
  BitVec.extractLsb'_and.trans (Laws.TableRow.mask_ones _)

/-- The mask 0xF00F keeps N. -/
theorem n_and_F00F (w : Word) : (fieldsOf (w &&& 0xF00F)).n = (fieldsOf w).n :=
  BitVec.extractLsb'_and.trans (Laws.TableRow.mask_ones _)

/-- A word with the fixed bits of the layout class, NNN is laid out from that class and its own NNN. -/
theorem wordNNN_of_and_mask {w : Word} {c : Nibble} (h : w &&& 0xF000 = wordNNN c 0) :
    wordNNN c (fieldsOf w).nnn = w := by
  have hc : (fieldsOf w).cls = c := by rw [← cls_and_F000, h, (fieldsOf_wordNNN c 0).1]
  rw [← hc, wordNNN_fieldsOf]

/-- A word with the fixed bits of the layout class, X, NN is laid out from that class and its own X and NN. -/
theorem wordXNN_of_and_mask {w : Word} {c : Nibble} (h : w &&& 0xF000 = wordXNN c 0 0) :
    wordXNN c (regOfField (fieldsOf w).x) (fieldsOf w).nn = w := by
  have hc : (fieldsOf w).cls = c := by rw [← cls_and_F000, h, (fieldsOf_wordXNN c 0 0).1]
  rw [← hc, wordXNN_fieldsOf]

/-- A word with the fixed bits of the layout class, X, Y, N is laid out from that class and N and its own X and Y. -/
theorem wordXYN_of_and_mask {w : Word} {c n : Nibble} (h : w &&& 0xF00F = wordXYN c 0 0 n) :
    wordXYN c (regOfField (fieldsOf w).x) (regOfField (fieldsOf w).y) n = w := by
  obtain ⟨hcls, -, -, hnib⟩ := fieldsOf_wordXYN c 0 0 n
  have hc : (fieldsOf w).cls = c := by rw [← cls_and_F00F, h, hcls]
  have hn : (fieldsOf w).n = n := by rw [← n_and_F00F, h, hnib]
  rw [← hc, ← hn, wordXYN_fieldsOf]

/-- The match values under the mask 0xF000. -/
def classMatches : List Word := [0x1000, 0x3000, 0x4000, 0x6000, 0x7000]

/-- The match values under the mask 0xF00F. -/
def classNMatches : List Word :=
  [0x5000, 0x8000, 0x8001, 0x8002, 0x8003, 0x8004, 0x8005, 0x8006, 0x8007, 0x800E]

/-- A word decodes at all exactly when it has the fixed bits of some row (30_encoding.md R55). -/
theorem exists_decode_iff_and_mask_mem (w : Word) :
    (∃ i, decode w = .ok i) ↔ w &&& 0xF000 ∈ classMatches ∨ w &&& 0xF00F ∈ classNMatches := by
  constructor
  · rintro ⟨i, h⟩
    have hm := and_mask_of_decode h
    cases i with
    | jp | seImm | sneImm | ldImm | addImm => exact .inl (hm ▸ by simp [Instr.matchBits, classMatches])
    | _ => exact .inr (hm ▸ by simp [Instr.matchBits, classNMatches])
  · rw [exists_decode_iff_mapped]
    have hclass : ∀ m ∈ classMatches, [1, 3, 4, 6, 7].contains (fieldsOf m).cls.toNat = true := by
      simp [classMatches, fieldsOf]
    have hclassN : ∀ m ∈ classNMatches, (fieldsOf m).mapped = true := by
      simp [classNMatches, Fields.mapped, fieldsOf]
    rintro (h | h)
    · have := hclass _ h
      rw [cls_and_F000] at this
      rw [Fields.mapped, this, Bool.true_or, Bool.true_or]
    · have := hclassN _ h
      rwa [Fields.mapped, cls_and_F00F, n_and_F00F] at this

/-- Settles O3: the fixed bits of a row and the word's own operands are the row's layout, which is the instruction's
word, and that decodes to the instruction and to no other. -/
theorem wordIsRowExactlyWhenMaskMatches : Obligations.WordIsRowExactlyWhenMaskMatches := by
  intro w x y nn nnn
  obtain ⟨-, hxw, hyw, -, hnnw, hnnnw⟩ := fieldsOf_toNat w
  have hx : regOfField (fieldsOf w).x = x := Fin.ext (by simpa [x, Nat.shiftRight_eq_div_pow])
  have hy : regOfField (fieldsOf w).y = y := Fin.ext (by simpa [y, Nat.shiftRight_eq_div_pow])
  have hnn : (fieldsOf w).nn = nn := BitVec.eq_of_toNat_eq (by simpa [nn])
  have hnnn : (fieldsOf w).nnn = nnn := BitVec.eq_of_toNat_eq (by simpa [nnn])
  clear_value x y nn nnn
  subst hx hy hnn hnnn
  exact ⟨and_mask_iff_decode (i := .jp _) fun h => wordNNN_of_and_mask h,
    and_mask_iff_decode (i := .seImm _ _) fun h => wordXNN_of_and_mask h,
    and_mask_iff_decode (i := .sneImm _ _) fun h => wordXNN_of_and_mask h,
    and_mask_iff_decode (i := .seReg _ _) fun h => wordXYN_of_and_mask h,
    and_mask_iff_decode (i := .ldImm _ _) fun h => wordXNN_of_and_mask h,
    and_mask_iff_decode (i := .addImm _ _) fun h => wordXNN_of_and_mask h,
    and_mask_iff_decode (i := .ldReg _ _) fun h => wordXYN_of_and_mask h,
    and_mask_iff_decode (i := .or _ _) fun h => wordXYN_of_and_mask h,
    and_mask_iff_decode (i := .and _ _) fun h => wordXYN_of_and_mask h,
    and_mask_iff_decode (i := .xor _ _) fun h => wordXYN_of_and_mask h,
    and_mask_iff_decode (i := .addReg _ _) fun h => wordXYN_of_and_mask h,
    and_mask_iff_decode (i := .sub _ _) fun h => wordXYN_of_and_mask h,
    and_mask_iff_decode (i := .shr _ _) fun h => wordXYN_of_and_mask h,
    and_mask_iff_decode (i := .subn _ _) fun h => wordXYN_of_and_mask h,
    and_mask_iff_decode (i := .shl _ _) fun h => wordXYN_of_and_mask h,
    exists_decode_iff_and_mask_mem w⟩

/-! ### The words that are no instruction -/

/-- The second level of dispatch rejects the seven unmapped values of N (30_encoding.md R58). -/
theorem dispatchAlu_eq_error_iff {f : Fields} {r : Reject} :
    dispatchAlu f = .error r ↔ .unmappedAluOp f.n = r ∧ f.n.toNat ∈ [0x8, 0x9, 0xA, 0xB, 0xC, 0xD, 0xF] := by
  have := f.n.isLt
  unfold dispatchAlu
  split
  case h_10 => simp_all; omega
  all_goals next h => simp [h]

/-- The dispatcher rejects exactly the three groups of 30_encoding.md R58, each with the field that is at fault. -/
theorem dispatch_eq_error_iff {f : Fields} {r : Reject} :
    dispatch f = .error r ↔
      (.unmappedClass f.cls = r ∧ f.cls.toNat ∈ [0x0, 0x2, 0x9, 0xA, 0xB, 0xC, 0xD, 0xE, 0xF]) ∨
      (.nonzeroSkipField f.n = r ∧ f.cls.toNat = 0x5 ∧ f.n.toNat ≠ 0) ∨
      (.unmappedAluOp f.n = r ∧ f.cls.toNat = 0x8 ∧ f.n.toNat ∈ [0x8, 0x9, 0xA, 0xB, 0xC, 0xD, 0xF]) := by
  have := f.cls.isLt
  have hn : f.n = 0 ↔ f.n.toNat = 0 := by simp [← BitVec.toNat_inj]
  unfold dispatch
  split
  case h_4 h => split <;> simp_all
  case h_7 h => simp [h, dispatchAlu_eq_error_iff]
  case h_8 => simp_all; omega
  all_goals next h => simp [h]

/-- Settles O4: each group is one branch of the dispatcher's rejections, with the class and N as arithmetic on the
word. -/
theorem illegalWordsAreTheThreeGroups : Obligations.IllegalWordsAreTheThreeGroups := by
  intro w
  obtain ⟨hc, -, -, hn, -, -⟩ := fieldsOf_toNat w
  simp [decode, dispatch_eq_error_iff, hc, hn]

/-! ### Counts, ranges and examples -/

/-- Settles O6: a word laid out as class, X, Y, N gives its class and N back whatever X and Y are, and 90 of the 256
pairs of these are mapped. -/
theorem legalWordCount : Obligations.LegalWordCount := by
  intro x y
  simp only [Fields.mapped, fieldsOf_wordXYN, BitVec.toNat_ofNat]
  decide +kernel

/-- Settles O7: a shift is a division and a mask of ones a remainder, which the fields of a word are. -/
theorem decoderFieldsAreBitRanges : Obligations.DecoderFieldsAreBitRanges := by
  intro w
  obtain ⟨hc, hx, hy, hn, hnn, hnnn⟩ := fieldsOf_toNat w
  have := w.isLt
  simp only [Nat.shiftRight_eq_div_pow, show 0xF = 2 ^ 4 - 1 from rfl, show 0xFF = 2 ^ 8 - 1 from rfl,
    show 0xFFF = 2 ^ 12 - 1 from rfl, Nat.and_two_pow_sub_one_eq_mod]
  omega

/-- Settles O8, by running the decoder on the five words. -/
theorem sourceExampleWordsDecode : Obligations.SourceExampleWordsDecode := by
  unfold Obligations.SourceExampleWordsDecode
  decide

end Sys2Proof

namespace Sys2Proof.Machine

/-! ## The ignored Y of the shifts -/

/-- Settles O36: the field Y is not in a shift's meaning, and the register V[Y] is neither read nor written where Y is
neither X nor VF. -/
theorem shiftsAreIndependentOfY : Obligations.ShiftsAreIndependentOfY := by
  intro s x y z b
  obtain ⟨t, ht, -, hshr, -⟩ := registersReadAndWritten (.shr x y) s y b
  obtain ⟨u, hu, -, hshl, -⟩ := registersReadAndWritten (.shl x y) s y b
  refine ⟨t, u, ht, ht, hu, hu, fun hx hf => ?_⟩
  have hr : y ∉ [x] := by simpa
  have hw : y ∉ [x, Config.flagReg] := by simpa using ⟨hx, hf⟩
  exact ⟨hshr hr hw, hshl hr hw⟩

end Sys2Proof.Machine

namespace Sys2Proof

/-! ## The execute cycle as a whole -/

/-- Two bytes decode to an instruction, with none left, exactly where their word does (20_memory.md R32). -/
theorem decodeBytes_pair_eq_ok_iff {hi lo : Byte} {i : Instr} :
    decodeBytes [hi, lo] = .ok (i, []) ↔ decode (wordOfBytes hi lo) = .ok i := by
  cases hd : decode (wordOfBytes hi lo) <;> simp [decodeBytes, hd]

end Sys2Proof

namespace Sys2Proof.Machine

/-- An outcome that is a next state is one next state only. -/
theorem existsUnique_next {o : Host.Outcome State Fault Refusal} (h : ∃ t, o = .next t) : ∃! t, o = .next t := by
  obtain ⟨t, rfl⟩ := h
  exact ⟨t, rfl, fun _ hu => (Host.Outcome.next.inj hu).symm⟩

/-- Settles O13: `step` and `execute` are host operations, none of which faults, is refused or waits. -/
theorem everyCycleHasExactlyOnePostState : Obligations.EveryCycleHasExactlyOnePostState :=
  fun s => ⟨existsUnique_next (operate_next .step s), fun w => existsUnique_next (operate_next (.execute w) s)⟩

/-- Settles O44: a halted engine keeps its whole state, and a running one's cycle carries memory and I along. -/
theorem executeIgnoresMemoryAndIndex : Obligations.ExecuteIgnoresMemoryAndIndex := by
  intro s t w k m h
  obtain hh | hh := s.halted.eq_false_or_eq_true
  · cases (execute_of_halted hh).symm.trans h
    exact ⟨rfl, rfl, execute_of_halted (s := { s with mem := m, i := k }) hh⟩
  · have hc : cycle w s = .next t := (execute_of_running hh).symm.trans h
    obtain ⟨hm, hi⟩ := cycle_mem_i hc
    exact ⟨hm, hi, (execute_of_running (s := { s with mem := m, i := k }) hh).trans (cycle_with_mem_i m k hc)⟩

/-- Settles O11: `execute` on a running engine is the cycle, which runs the handler after the advance of PC. -/
theorem executeRunsTheDecodedInstruction : Obligations.ExecuteRunsTheDecodedInstruction :=
  fun _ _ _ hh hd => (execute_of_running hh).trans (cycle_of_ok hd)

/-- Settles O12: both entry points run the same cycle, or none in a halted state. -/
theorem stepIsExecuteOfTheFetchedWord : Obligations.StepIsExecuteOfTheFetchedWord :=
  fun _ _ => step_eq_execute_of_fetch

/-- Settles O10: the fetch composes the two bytes to a word, and a step is `execute` of that word. -/
theorem stepRunsTheDecodedInstruction : Obligations.StepRunsTheDecodedInstruction := by
  intro s hi lo i hh hhi hlo hd
  have hf : s.fetch = some (wordOfBytes hi lo) := State.fetch_of_memRead hhi hlo
  exact (step_eq_execute_of_fetch hf).trans
    (executeRunsTheDecodedInstruction s _ i hh (decodeBytes_pair_eq_ok_iff.mp hd))

end Sys2Proof.Machine

namespace Sys2Proof.Machine

/-! ## Jump and skips -/

/-! ### Skips and injected words -/

/-- A running engine given the word of an instruction runs its handler past that word (40_execute_cycle.md R71). -/
theorem execute_encode {s : State} (i : Instr) (hh : s.halted = false) : execute (encode i) s = exec i s.advance :=
  executeRunsTheDecodedInstruction s _ i hh (decode_encode i)

/-- A skip changes PC at most (41_control_transfer.md R91). -/
theorem State.skipIf_eq (s : State) (c : Bool) : s.skipIf c = { s with pc := if c then s.pc + 2 else s.pc } := by
  cases c <;> rfl

/-- The advance and a skip change PC only, to `a + 4` or `a + 2` (41_control_transfer.md R91). -/
theorem State.advance_skipIf_eq (s : State) (c : Bool) :
    s.advance.skipIf c = { s with pc := if c then s.pc + 4 else s.pc + 2 } := by
  rw [← State.advance_skipIf_pc, State.skipIf_eq]
  rfl

/-! ### The whole post-states -/

/-- Settles O16: the handler overwrites PC, so the advance before it leaves no trace. -/
theorem jumpSetsPcToNnn : Obligations.JumpSetsPcToNnn := by
  intro s nnn
  rw [← immNNN_eq_ofNat]
  exact ⟨exec_jp s nnn, execute_encode (.jp nnn)⟩

/-- Settles O17: the handler is a skip on the comparison, after the advance where the word is injected. -/
theorem skipIfEqualImmediate : Obligations.SkipIfEqualImmediate := by
  intro s x nn
  refine ⟨?_, fun hh => (execute_encode (.seImm x nn) hh).trans ?_⟩
  · rw [exec_seImm, State.skipIf_eq]
    simp
  · rw [exec_seImm, State.advance_skipIf_eq]
    simp

/-- Settles O18: the handler is a skip on the negated comparison, so it skips where SE_IMM does not. -/
theorem skipIfNotEqualImmediate : Obligations.SkipIfNotEqualImmediate := by
  intro s x nn
  refine ⟨?_, fun hh => (execute_encode (.sneImm x nn) hh).trans ?_, _, _, exec_seImm .., exec_sneImm .., ?_⟩
  · rw [exec_sneImm, State.skipIf_eq]
    simp
  · rw [exec_sneImm, State.advance_skipIf_eq]
    simp
  · by_cases heq : s.readV x = nn
    · exact .inl (by simp [heq])
    · exact .inr (by simp [heq])

/-- The word 5XY0 on a running engine (41_control_transfer.md R93). -/
theorem execute_seReg {s : State} (x y : RegIndex) (hh : s.halted = false) :
    execute (encode (.seReg x y)) s =
      .next { s with pc := if s.readV x = s.readV y then s.pc + 4 else s.pc + 2 } := by
  rw [execute_encode _ hh, exec_seReg, State.advance_skipIf_eq]
  simp

/-- Settles O19: the handler is a skip on the comparison, which holds of a register and itself. -/
theorem skipIfRegistersEqual : Obligations.SkipIfRegistersEqual := by
  intro s x y
  refine ⟨?_, execute_seReg x y, fun hh => (execute_seReg x x hh).trans ?_⟩
  · rw [exec_seReg, State.skipIf_eq]
    simp
  · rw [if_pos rfl]

/-- Settles O39: each of the four whole post-states differs from the state in PC only. -/
theorem controlTransferFrame : Obligations.ControlTransferFrame := by
  intro i s t hi h
  have hpc : ∃ w, exec i s = .next (s.writePC w) := by
    obtain ⟨nnn, rfl⟩ | ⟨x, nn, rfl⟩ | ⟨x, nn, rfl⟩ | ⟨x, y, rfl⟩ := hi
    · exact ⟨_, exec_jp s nnn⟩
    · exact ⟨_, (skipIfEqualImmediate s x nn).1⟩
    · exact ⟨_, (skipIfNotEqualImmediate s x nn).1⟩
    · exact ⟨_, (skipIfRegistersEqual s x y).1⟩
  obtain ⟨w, hw⟩ := hpc
  cases hw.symm.trans h
  exact ⟨s.readV_writePC w, rfl, rfl, rfl, rfl, rfl, fun _ => rfl⟩

/-! ### The self-jump -/

/-- An address where a word can be fetched is its own low 12 bits (20_memory.md R36). -/
theorem ofNat_setWidth_of_le {p : Word} (h : p.toNat ≤ 0x0FFE) : BitVec.ofNat 16 (p.setWidth 12).toNat = p := by
  apply BitVec.eq_of_toNat_eq
  rw [BitVec.toNat_ofNat, BitVec.toNat_setWidth]
  omega

/-- An instruction that leaves PC where it was is the jump there: every other one goes 2 or 4 further. -/
theorem eq_jp_of_step_pc {s t : State} {w : Word} {i : Instr} (hh : s.halted = false) (hf : s.fetch = some w)
    (hd : decode w = .ok i) (h : step s = .next t) (hpc : t.pc = s.pc) : i = .jp (s.pc.setWidth 12) := by
  have h2 : s.pc ≠ s.pc + 2 := by bv_omega
  have h4 : s.pc ≠ s.pc + 4 := by bv_omega
  obtain ⟨u, hu, hupc⟩ := pcAfterAnInstruction s w i hh hf hd
  cases hu.symm.trans h
  rw [hpc] at hupc
  cases i with
  | jp nnn => simp [hupc]
  | seImm | sneImm | seReg =>
    dsimp only at hupc
    split at hupc <;> contradiction
  | _ => contradiction

/-- A step between running states runs an instruction: every error latches (60_exceptions.md R134). -/
theorem decode_ok_of_step_running {s t : State} (hh : s.halted = false) (h : step s = .next t)
    (ht : t.halted = false) : ∃ w i, s.fetch = some w ∧ decode w = .ok i := by
  obtain ⟨hs, -⟩ | ⟨-, -, hst⟩ | ⟨w, -, hf, hst⟩ := step_cases s
  · simp [hh] at hs
  · cases hst.symm.trans h
    cases ht
  · cases hd : decode w with
    | ok i => exact ⟨w, i, hf, hd⟩
    | error r =>
      cases (cycle_of_error hd).symm.trans (hst.symm.trans h)
      cases ht

/-- Settles O60: a step that leaves the state as it is runs an instruction that leaves PC alone, which is the jump to
PC; and where a word is fetched, that jump's NNN is PC. -/
theorem selfJumpIsTheOnlyFixedPoint : Obligations.SelfJumpIsTheOnlyFixedPoint := by
  intro s hh
  constructor
  · intro h
    obtain ⟨w, i, hf, hd⟩ := decode_ok_of_step_running hh h hh
    have hi : i = .jp (s.pc.setWidth 12) := eq_jp_of_step_pc hh hf hd h rfl
    rw [hf, ← encode_of_decode hd, hi]
    rfl
  · intro hf
    rw [step_eq_execute_of_fetch hf, (jumpSetsPcToNnn s _).2 hh, ofNat_setWidth_of_le (State.pc_le_of_fetch hf)]

end Sys2Proof.Machine

namespace Sys2Proof.Machine

/-! ## Immediates -/

/-- The sum modulo 256 is the sum where that fits a byte, and the sum minus 256 elsewhere (42_immediate.md R101). -/
theorem sumMod256_eq_ite (a b : Byte) :
    sumMod256 a b =
      BitVec.ofNat 8 (if a.toNat + b.toNat ≤ 255 then a.toNat + b.toNat else a.toNat + b.toNat - 256) := by
  have ha := a.isLt
  have hb := b.isLt
  rw [sumMod256]
  congr 1
  split <;> omega

/-- Settles O20: the handler writes NN into V[X], after the advance where the word is injected. -/
theorem loadImmediateSetsRegister : Obligations.LoadImmediateSetsRegister :=
  fun s x nn => ⟨exec_ldImm s x nn, fun hh => (execute_encode (.ldImm x nn) hh).trans (exec_ldImm s.advance x nn)⟩

/-- Settles O21: the handler writes the sum modulo 256 into V[X], after the advance where the word is injected. -/
theorem addImmediateWrapsWithoutFlag : Obligations.AddImmediateWrapsWithoutFlag := by
  intro s x nn
  dsimp only
  rw [← sumMod256_eq_ite]
  exact ⟨exec_addImm s x nn, fun hh => (execute_encode (.addImm x nn) hh).trans (exec_addImm s.advance x nn)⟩

/-- Settles O40: each of the six is one write of V[X]. -/
theorem plainRegisterWriteFrame : Obligations.PlainRegisterWriteFrame := by
  intro i x s t hi h
  have hwrite : ∃ b, exec i s = .next (s.writeV x b) := by
    obtain ⟨nn, rfl | rfl⟩ | ⟨y, rfl | rfl | rfl | rfl⟩ := hi
    · exact ⟨_, exec_ldImm s x nn⟩
    · exact ⟨_, exec_addImm s x nn⟩
    · exact ⟨_, exec_ldReg s x y⟩
    · exact ⟨_, exec_or s x y⟩
    · exact ⟨_, exec_and s x y⟩
    · exact ⟨_, exec_xor s x y⟩
  obtain ⟨b, hb⟩ := hwrite
  cases hb.symm.trans h
  exact ⟨fun r hr => s.readV_writeV_of_ne b hr.symm, rfl, rfl, rfl, rfl, rfl, rfl, fun _ => rfl⟩

end Sys2Proof.Machine

namespace Sys2Proof.Machine

/-! ## The ALU -/

/-! ### The results and flags as arithmetic on the operands -/

/-- A flag value is the number 1 or 0 (10_state.md R13). -/
theorem toNat_flagByte (c : Bool) : (flagByte c).toNat = if c then 1 else 0 := by cases c <;> rfl

/-- The carry flag, as the rule words it (43_alu.md R115). -/
theorem carryFlag_eq_ite (a b : Byte) : carryFlag a b = if a.toNat + b.toNat > 255 then 1 else 0 := by
  simp [carryFlag, flagByte]

/-- The no-borrow flag, as the rule words it (43_alu.md R116). -/
theorem noBorrowFlag_eq_ite (a b : Byte) : noBorrowFlag a b = if a.toNat ≥ b.toNat then 1 else 0 := by
  simp [noBorrowFlag, flagByte]

/-- The carry is what the sum modulo 256 loses (43_alu.md R115). -/
theorem carryFlag_sumMod256 (a b : Byte) :
    256 * (carryFlag a b).toNat + (sumMod256 a b).toNat = a.toNat + b.toNat := by
  have ha := a.isLt
  have hb := b.isLt
  simp only [carryFlag, toNat_flagByte, sumMod256, BitVec.toNat_ofNat, decide_eq_true_eq]
  split <;> omega

/-- The difference modulo 256 is the true difference, plus 256 where a borrow was needed (43_alu.md R116). -/
theorem toNat_diffMod256 (a b : Byte) :
    ((diffMod256 a b).toNat : Int) = a.toNat - b.toNat + 256 * (1 - (noBorrowFlag a b).toNat) := by
  have ha := a.isLt
  have hb := b.isLt
  simp only [noBorrowFlag, toNat_flagByte, diffMod256, BitVec.toNat_ofNat, decide_eq_true_eq]
  split <;> omega

/-- A right shift halves (43_alu.md R117). -/
theorem toNat_shiftRight1 (b : Byte) : (shiftRight1 b).toNat = b.toNat / 2 := by
  rw [shiftRight1, BitVec.toNat_ushiftRight, Nat.shiftRight_one]

theorem shiftRight1_eq_ofNat (b : Byte) : shiftRight1 b = BitVec.ofNat 8 (b.toNat / 2) := by
  rw [← toNat_shiftRight1, BitVec.ofNat_toNat, BitVec.setWidth_eq]

/-- The bit a right shift pushes out is the remainder of the halving (43_alu.md R117). -/
theorem toNat_shiftedOutLow (b : Byte) : (shiftedOutLow b).toNat = b.toNat % 2 := by
  rw [shiftedOutLow, BitVec.toNat_and]
  exact Nat.and_one_is_mod _

/-- A left shift doubles modulo 256 (43_alu.md R119). -/
theorem shiftLeft1_eq_ofNat (b : Byte) : shiftLeft1 b = BitVec.ofNat 8 (2 * b.toNat % 256) := by
  rw [shiftLeft1, Nat.shiftLeft_eq, pow_one, Nat.mul_comm]

/-- A left shift is the sum of the byte and itself (43_alu.md R119). -/
theorem shiftLeft1_eq_sumMod256 (b : Byte) : shiftLeft1 b = sumMod256 b b := by
  rw [shiftLeft1_eq_ofNat, sumMod256, Nat.two_mul]

/-- The bit a left shift pushes out is the carry of that sum, for each of the 256 bytes (43_alu.md R119). -/
theorem shiftedOutHigh_eq_carryFlag (b : Byte) : shiftedOutHigh b = carryFlag b b := by
  revert b; decide

/-! ### The two write orders -/

section
variable (s : State)

/-- For another destination than VF the order of the two writes does not matter (43_alu.md R110). -/
theorem State.writeFlagThenResult_eq {x : RegIndex} (f b : Byte) (h : x ≠ 0xF) :
    s.writeFlagThenResult x f b = s.writeResultThenFlag x b f :=
  s.writeV_comm f b h.symm

/-- A result written before the flag stays in another destination than VF. -/
theorem State.readV_writeResultThenFlag {x : RegIndex} (b f : Byte) (h : x ≠ 0xF) :
    (s.writeResultThenFlag x b f).readV x = b :=
  (State.readV_writeV_of_ne _ f h.symm).trans (s.readV_writeV_self x b)

/-- With destination VF the flag, written last, stays alone (43_alu.md R123). -/
theorem State.writeResultThenFlag_flag (b f : Byte) : s.writeResultThenFlag 0xF b f = s.writeV 0xF f :=
  s.writeV_writeV_self 0xF b f

/-- With destination VF the result, written last, stays alone (43_alu.md R124). -/
theorem State.writeFlagThenResult_flag (f b : Byte) : s.writeFlagThenResult 0xF f b = s.writeV 0xF b :=
  s.writeV_writeV_self 0xF f b

end

/-! ### A handler by itself and by its injected word -/

/-- A handler's effect `f` is what the instruction does by itself, and what its injected word does past the advance of
PC (40_execute_cycle.md R71). -/
theorem exec_and_execute_encode {i : Instr} {f : State → State} (hf : ∀ s, exec i s = .next (f s)) (s : State) :
    exec i s = .next (f s) ∧ (s.halted = false → execute (encode i) s = .next (f s.advance)) :=
  ⟨hf s, fun hh => (execute_encode i hh).trans (hf s.advance)⟩

/-! ### The four without a flag -/

/-- Settles O22: the handler writes V[Y] into V[X], after the advance where the word is injected. -/
theorem copySetsRegister : Obligations.CopySetsRegister :=
  fun s x y => exec_and_execute_encode (exec_ldReg · x y) s

/-- Settles O23: the handler writes the bitwise OR into V[X]. -/
theorem orIsBitwise : Obligations.OrIsBitwise :=
  fun s x y => ⟨s.readV x ||| s.readV y, fun _ => BitVec.getLsbD_or, exec_and_execute_encode (exec_or · x y) s⟩

/-- Settles O24: the handler writes the bitwise AND into V[X]. -/
theorem andIsBitwise : Obligations.AndIsBitwise :=
  fun s x y => ⟨s.readV x &&& s.readV y, fun _ => BitVec.getLsbD_and, exec_and_execute_encode (exec_and · x y) s⟩

/-- Settles O25: the handler writes the bitwise exclusive OR into V[X], which is 0 of a byte and itself. -/
theorem xorIsBitwise : Obligations.XorIsBitwise := by
  intro s x y
  obtain ⟨hexec, hexecute⟩ := exec_and_execute_encode (exec_xor · x y) s
  refine ⟨s.readV x ^^^ s.readV y, fun _ => BitVec.getLsbD_xor, hexec, hexecute, ?_⟩
  rintro rfl
  exact BitVec.xor_self

/-! ### The five with a flag -/

/-- Settles O26: the handler writes the sum modulo 256 and then the carry, which is what that sum loses. -/
theorem addRegisterSetsCarry : Obligations.AddRegisterSetsCarry :=
  fun s x y _ => ⟨sumMod256 (s.readV x) (s.readV y), carryFlag (s.readV x) (s.readV y), carryFlag_eq_ite _ _,
    carryFlag_sumMod256 _ _, exec_and_execute_encode (exec_addReg · x y) s⟩

/-- Settles O27: the handler writes the difference modulo 256 and then the no-borrow flag. -/
theorem subtractSetsNoBorrow : Obligations.SubtractSetsNoBorrow :=
  fun s x y _ => ⟨diffMod256 (s.readV x) (s.readV y), noBorrowFlag (s.readV x) (s.readV y), noBorrowFlag_eq_ite _ _,
    toNat_diffMod256 _ _, exec_and_execute_encode (exec_sub · x y) s⟩

/-- Settles O28: the handler writes the remainder and then the quotient of the halving. -/
theorem shiftRightCapturesLowBit : Obligations.ShiftRightCapturesLowBit := by
  intro s x y _
  refine ⟨shiftRight1 (s.readV x), shiftedOutLow (s.readV x), ?_, ?_, exec_and_execute_encode (exec_shr · x y) s⟩
  · rw [toNat_shiftedOutLow]
    omega
  · rw [toNat_shiftRight1, toNat_shiftedOutLow, Nat.div_add_mod]

/-- Settles O29: the handler writes the reverse difference modulo 256 and then its no-borrow flag. -/
theorem reverseSubtractSetsNoBorrow : Obligations.ReverseSubtractSetsNoBorrow :=
  fun s x y _ => ⟨diffMod256 (s.readV y) (s.readV x), noBorrowFlag (s.readV y) (s.readV x), noBorrowFlag_eq_ite _ _,
    toNat_diffMod256 _ _, exec_and_execute_encode (exec_subn · x y) s⟩

/-- Settles O30: the bit shifted out and the shifted value are the carry and the sum of V[X] and itself. -/
theorem shiftLeftCapturesHighBit : Obligations.ShiftLeftCapturesHighBit := by
  intro s x y _
  refine ⟨shiftLeft1 (s.readV x), shiftedOutHigh (s.readV x), ?_, exec_and_execute_encode (exec_shl · x y) s⟩
  rw [shiftLeft1_eq_sumMod256, shiftedOutHigh_eq_carryFlag, carryFlag_sumMod256, Nat.two_mul]

/-- Settles O31: with destination VF the flag, written last, stays alone. -/
theorem arithmeticIntoVfLeavesTheFlag : Obligations.ArithmeticIntoVfLeavesTheFlag := by
  intro s y
  rw [exec_addReg, exec_sub, exec_subn]
  simp only [State.writeResultThenFlag_flag, carryFlag_eq_ite, noBorrowFlag_eq_ite]
  exact ⟨rfl, rfl, rfl⟩

/-- Settles O32: with destination VF the shifted value, written last, stays alone. -/
theorem shiftIntoVfLeavesTheShiftedValue : Obligations.ShiftIntoVfLeavesTheShiftedValue := by
  intro s y
  constructor
  · rw [exec_shr, State.writeFlagThenResult_flag, shiftRight1_eq_ofNat]
    rfl
  · rw [exec_shl, State.writeFlagThenResult_flag, shiftLeft1_eq_ofNat]
    rfl

/-- Settles O33: both write the difference and the flag of the same two operands. -/
theorem subnMirrorsSub : Obligations.SubnMirrorsSub := by
  intro s x y
  refine ⟨_, _, exec_subn s x y, exec_sub s y x, ?_, fun hx hy => ?_⟩
  · rw [State.readV_flag_writeResultThenFlag, State.readV_flag_writeResultThenFlag]
  · rw [State.readV_writeResultThenFlag s _ _ hx, State.readV_writeResultThenFlag s _ _ hy]

/-- Settles O34: SHL writes the sum of V[X] and itself and its carry, and the order of the two writes does not
matter. -/
theorem shiftLeftIsAddToItself : Obligations.ShiftLeftIsAddToItself := by
  intro s x y hx
  refine ⟨_, ?_, exec_addReg s x x⟩
  rw [exec_shl, State.writeFlagThenResult_eq s _ _ hx, shiftLeft1_eq_sumMod256, shiftedOutHigh_eq_carryFlag]

/-- Settles O41: each of the five changes the register file only, and in it only the registers of its row in
10_state.md R12's table. -/
theorem flagWritingFrame : Obligations.FlagWritingFrame := by
  intro i x s t hi h
  have heffect : regWrites i = [x, 0xF] ∧ ∃ v, exec i s = .next { s with v := v } := by
    obtain ⟨y, rfl | rfl | rfl | rfl | rfl⟩ := hi
    · exact ⟨rfl, _, exec_addReg s x y⟩
    · exact ⟨rfl, _, exec_sub s x y⟩
    · exact ⟨rfl, _, exec_shr s x y⟩
    · exact ⟨rfl, _, exec_subn s x y⟩
    · exact ⟨rfl, _, exec_shl s x y⟩
  obtain ⟨hwrites, v, hv⟩ := heffect
  cases hv.symm.trans h
  refine ⟨fun r hx hflag => ?_, rfl, rfl, rfl, rfl, rfl, rfl, fun _ => rfl⟩
  obtain ⟨u, hu, hkept, -⟩ := registersReadAndWritten i s r 0
  cases hv.symm.trans hu
  exact hkept (by simp [hwrites, hx, hflag])

end Sys2Proof.Machine

namespace Sys2Proof.Machine

/-! ## Errors and the halted state -/

/-! ### What each error leaves behind -/

/-- `execute` of a word that is no instruction latches `UnimplementedOpcode`, PC past the word (60_exceptions.md
R131). -/
theorem execute_of_error {s : State} {w : Word} {r : Reject} (hh : s.halted = false) (hd : decode w = .error r) :
    execute w s = .next (s.advance.raiseUnimplementedOpcode s.pc w) :=
  (execute_of_running hh).trans (cycle_of_error hd)

/-- Settles O45: such a word latches the error, and a step on it is `execute` of it. -/
theorem unimplementedOpcodeHalts : Obligations.UnimplementedOpcodeHalts :=
  fun _ _ _ hh hd => ⟨execute_of_error hh hd, fun hf => (step_eq_execute_of_fetch hf).trans (execute_of_error hh hd)⟩

/-- Settles O46: above 0x0FFE the fetch has no word, and up to there it has the two bytes at PC and PC + 1. -/
theorem outOfBoundsFetchHalts : Obligations.OutOfBoundsFetchHalts :=
  fun _ hh => ⟨step_of_gt hh, fun hp =>
    ⟨_, State.fetch_of_le hp, step_eq_execute_of_fetch (State.fetch_of_le hp)⟩⟩

/-- Settles O48: the length check of a load comes before its first write. -/
theorem overlongLoadHalts : Obligations.OverlongLoadHalts :=
  fun _ _ hh hp => congrArg _ (hostLoad_of_gt hh hp)

/-- Settles O49: each operation but reset tests the latch first. -/
theorem haltedMachineIsFrozen : Obligations.HaltedMachineIsFrozen := by
  intro s o hh ho
  cases o with
  | reset => exact absurd rfl ho
  | step => exact step_of_halted hh
  | execute w => exact execute_of_halted hh
  | load p => exact congrArg _ (hostLoad_of_halted p hh)
  | writeV | writeI | writePC | writeMem => exact congrArg _ (hostWrite_of_halted _ hh)

/-! ### The latch after an operation -/

/-- The four fields of the fault latch (10_state.md R18) are in `t` as they are in `s`. -/
def State.SameLatch (s t : State) : Prop :=
  t.halted = s.halted ∧ t.faultCause = s.faultCause ∧ t.faultPc = s.faultPc ∧ t.faultWord = s.faultWord

/-- What an operation on a running engine can leave: the reset state, its latch as it was, or one of the three errors of
60_exceptions.md R130, each by its own operation and under its own condition. -/
inductive LatchEffect (s : State) : HostOp → State → Prop where
  /-- The reset state (70_reset_and_hazards.md R160). -/
  | reset : LatchEffect s .reset State.reset
  /-- No error, and the latch as it was. -/
  | kept {o : HostOp} {t : State} (h : s.SameLatch t) : LatchEffect s o t
  /-- An injected or fetched word that is no instruction (R131). -/
  | unimplementedOpcode {o : HostOp} {w : Word} {r : Reject} (ho : o = .execute w ∨ (o = .step ∧ s.fetch = some w))
      (hd : decode w = .error r) : LatchEffect s o (s.advance.raiseUnimplementedOpcode s.pc w)
  /-- A fetch out of range (R132). -/
  | outOfBoundsAddress (hp : 0x0FFE < s.pc.toNat) : LatchEffect s .step s.raiseOutOfBoundsAddress
  /-- A load that does not fit (R133). -/
  | programTooLarge {p : List Byte} (hp : Config.loadCapacity < p.length) :
      LatchEffect s (.load p) s.raiseProgramTooLarge

/-- A cycle, injected or fetched, keeps the latch or finds that its word is no instruction (60_exceptions.md R131). -/
theorem latchEffect_of_cycle {o : HostOp} {s t : State} {w : Word}
    (ho : o = .execute w ∨ (o = .step ∧ s.fetch = some w)) (h : cycle w s = .next t) : LatchEffect s o t := by
  obtain ⟨-, v, pc, -, -, hc⟩ | ⟨r, hd, hc⟩ := cycle_cases w s
  · cases hc.symm.trans h
    exact .kept ⟨rfl, rfl, rfl, rfl⟩
  · cases hc.symm.trans h
    exact .unimplementedOpcode ho hd

/-- Every operation on a running engine has one of these effects on the latch (60_exceptions.md R130, R137). -/
theorem operate_latchEffect {o : HostOp} {s t : State} (hh : s.halted = false) (h : operate o s = .next t) :
    LatchEffect s o t := by
  cases o with
  | reset =>
    cases h
    exact .reset
  | step =>
    obtain ⟨hs, -⟩ | ⟨-, hp, hst⟩ | ⟨w, -, hf, hst⟩ := step_cases s
    · simp [hh] at hs
    · cases hst.symm.trans h
      exact .outOfBoundsAddress hp
    · exact latchEffect_of_cycle (.inr ⟨rfl, hf⟩) (hst.symm.trans h)
  | execute w => exact latchEffect_of_cycle (.inl rfl) ((execute_of_running hh).symm.trans h)
  | load p =>
    cases h
    obtain hp | hp := le_or_gt p.length Config.loadCapacity
    · rw [hostLoad_of_le hh hp]
      exact .kept ⟨rfl, rfl, rfl, rfl⟩
    · rw [hostLoad_of_gt hh hp]
      exact .programTooLarge hp
  | writeV | writeI | writePC | writeMem =>
    cases h
    rw [hostWrite_of_running _ hh]
    exact .kept ⟨rfl, rfl, rfl, rfl⟩

/-- Settles O51: reset and an untouched clear latch have no cause, and each of the three errors latches its own. -/
theorem latchTellsTheCause : Obligations.LatchTellsTheCause := by
  intro o s t hh hc h
  cases operate_latchEffect hh h with
  | reset => exact ⟨rfl, fun hne => absurd rfl hne⟩
  | kept hkept =>
    obtain ⟨hhalted, hcause, hpc, hword⟩ := hkept
    rw [hcause, hc]
    exact ⟨hhalted.trans hh, fun _ => ⟨hpc, hword⟩⟩
  | unimplementedOpcode ho hd => exact ⟨_, _, ho, hd, rfl⟩
  | outOfBoundsAddress hp => exact ⟨rfl, hp, rfl⟩
  | programTooLarge hp => exact ⟨⟨_, rfl, hp⟩, rfl⟩

end Sys2Proof.Machine

namespace Sys2Proof.Machine

/-! ## The host interface -/

section
variable {s t : State}

/-! ### Memory as the host reads it -/

theorem State.memRead_of_lt {a : Nat} (ha : a < 4096) : s.memRead a = some (s.mem.read a) := if_pos ha

/-- Where two memories hold the same byte, it is read alike, in range or not. -/
theorem State.memRead_congr {a : Nat} (h : t.mem.read a = s.mem.read a) : t.memRead a = s.memRead a := by
  rw [State.memRead, State.memRead, h]

/-- The host reads back the byte it wrote, and elsewhere what was there (70_reset_and_hazards.md R165). -/
theorem State.memRead_memWrite (a : Addr) (b : Byte) (hm : s.mem.wf = true) (k : Nat) :
    (s.memWrite a b).memRead k = if k = a.toNat then some b else s.memRead k := by
  have hread := Memory.read_write a.toNat b hm k
  split
  · next hk =>
    rw [State.memRead_of_lt (hk ▸ a.isLt), State.memWrite_mem, hread, if_pos hk.symm]
  · next hk => exact State.memRead_congr (hread.trans (if_neg (Ne.symm hk)))

/-! ### Reset -/

theorem State.readV_reset (r : RegIndex) : State.reset.readV r = 0 := by simp [State.readV, State.reset]

/-- Every byte is 0 after reset (10_state.md R22): the empty memory lists no cell. -/
theorem State.memRead_reset {a : Nat} (ha : a < 4096) : State.reset.memRead a = some 0 := State.memRead_of_lt ha

/-! ### Load -/

/-- A load of at most 3584 bytes on a running engine writes them from 0x200 on (70_reset_and_hazards.md R162). -/
theorem operate_load_of_le {p : List Byte} (hh : s.halted = false) (hp : p.length ≤ 3584) :
    operate (.load p) s = .next { s with mem := s.mem.writeBytes 0x200 p } :=
  congrArg _ (hostLoad_of_le hh hp)

/-- The host reads the payload of a load where it was placed, and elsewhere what was there (70_reset_and_hazards.md
R162). -/
theorem State.memRead_writeBytes {p : List Byte} (hm : s.mem.wf = true) (hp : p.length ≤ 3584) (a : Nat) :
    ({ s with mem := s.mem.writeBytes 0x200 p } : State).memRead a =
      if h : 0x200 ≤ a ∧ a < 0x200 + p.length then some p[a - 0x200] else s.memRead a := by
  have hfit : 0x200 + p.length ≤ 4096 := by omega
  have hread := Memory.read_writeBytes hm hfit a
  split
  · next ha => rw [State.memRead_of_lt (by omega), hread, dif_pos ha]
  · next ha => exact State.memRead_congr (hread.trans (dif_neg ha))

end

/-- Settles O52: the load is the writes of its bytes from 0x200 on. -/
theorem loadPlacesThePayload : Obligations.LoadPlacesThePayload := by
  intro s p hh hm hp
  refine ⟨_, operate_load_of_le hh hp, rfl, fun k hk => ?_, fun a ha => ?_⟩
  · rw [State.memRead_writeBytes hm hp, dif_pos (by omega)]
    simp only [Nat.add_sub_cancel_left]
  · rw [State.memRead_writeBytes hm hp, dif_neg ha]

/-- Settles O53: each write has its effect on a running engine, and that effect is on one component. -/
theorem hostWritesOneComponent : Obligations.HostWritesOneComponent := by
  intro s hh
  have hwrite : ∀ f, hostWrite f s = f s := fun f => hostWrite_of_running f hh
  refine ⟨fun r b => congrArg _ (hwrite _), fun w => congrArg _ (hwrite _), fun w => congrArg _ (hwrite _), ?_⟩
  exact fun hm a b => ⟨s.memWrite a b, operate_writeMem_of_running a b hh, rfl, State.memRead_memWrite a b hm⟩

/-- Settles O50: reset leaves the one reset state, whatever the state before. -/
theorem resetClearsEverything : Obligations.ResetClearsEverything :=
  fun _ => ⟨State.reset, rfl, State.readV_reset, fun _ => State.memRead_reset, rfl, rfl, rfl, rfl, rfl, rfl⟩

/-- Settles O54: the load places the payload in the zero memory of the reset state and leaves the rest of it. -/
theorem resetThenLoadIsTheLaunchState : Obligations.ResetThenLoadIsTheLaunchState := by
  intro s p hp
  refine ⟨State.reset, _, rfl, operate_load_of_le rfl hp, State.readV_reset, rfl, rfl, rfl, fun a ha => ?_⟩
  rw [State.memRead_writeBytes Memory.wf_nil hp, State.memRead_reset ha]
  split
  · next hin => rw [if_pos hin.1, List.getD_eq_getElem p 0 (by omega)]
  · next hout =>
    split
    · next hlo => rw [List.getD_eq_default p 0 (by omega)]
    · rfl

/-! ## A carry and the next instruction -/

theorem carryFlag_eq_one_iff (a b : Byte) : carryFlag a b = 1 ↔ a.toNat + b.toNat > 255 := by
  simp [carryFlag_eq_ite]

/-- The word 8XY4 on a running engine leaves it running past the word, the carry in VF for every X (43_alu.md R115,
R123). -/
theorem execute_addReg {s : State} (x y : RegIndex) (hh : s.halted = false) :
    ∃ t, execute (encode (.addReg x y)) s = .next t ∧ t.halted = false ∧ t.pc = s.pc + 2 ∧
      t.readV 0xF = carryFlag (s.readV x) (s.readV y) :=
  ⟨_, (execute_encode _ hh).trans (exec_addReg ..), hh, rfl, State.readV_flag_writeResultThenFlag ..⟩

/-- Settles O38: ADD_REG leaves the carry in VF, and the skip compares VF with 1. -/
theorem nextInstructionTestsTheCarry : Obligations.NextInstructionTestsTheCarry := by
  intro s x y hh
  obtain ⟨t, hadd, hhalted, hpc, hflag⟩ := execute_addReg x y hh
  refine ⟨t, _, hadd, (skipIfEqualImmediate t 0xF 1).2 hhalted, ?_⟩
  simp only [hflag, hpc, carryFlag_eq_one_iff, BitVec.add_assoc]
  rfl

end Sys2Proof.Machine

namespace Sys2Proof.Machine

/-! ## The reset state and the invariant -/

/-- Settles O56: the empty memory lists no cell, so it is canonical, and the reset latch is clear. -/
theorem resetHasTheInvariant : Obligations.ResetHasTheInvariant := State.inv_reset

end Sys2Proof.Machine
